-- ==== Sys2Proof/Word.lean ====
section
/-! DEFINITION. The word types of the FP8-L-Mul core: what spec/ treats as bits (00_scope.md R8). -/

namespace Sys2Proof

/-- An FP8 byte or a command word: 8 bits (30_encoding.md R62, R70). -/
abbrev Byte := BitVec 8

/-- An FP32 bit pattern or one draw: 32 bits (30_encoding.md R60; 00_scope.md R7 `RW`). -/
abbrev Word := BitVec 32

end Sys2Proof
end

