-- ==== Sys2Proof/Config.lean ====
section
/-! DEFINITION. The parameters of 00_scope.md R7 and the free values the spec leaves open. -/

namespace Sys2Proof.Config

/-- `NEW`: width in bits of the `ne` field of the command word (00_scope.md R7, decision D3). -/
abbrev neWidth : Nat := 4

/-- The parameters a platform fixes. `dimw` is `DIMW`, the width of each dimension register, OPEN in the spec
(00_scope.md R7; 93_implementation_defined.md U3). It stands in State, so a statement about every state holds for every
`DIMW`; no step changes it (log 3). `BASE` is used by no rule (R7) and is left out (log 12). -/
structure Params where
  dimw : Nat
  deriving DecidableEq, Repr

/-- The reference value of `DIMW` (00_scope.md R7). DESIGN CHOICE (log 3): State.reset uses it. -/
def referenceParams : Params := { dimw := 8 }

/-- The draw port's value when no queued value is left: the `n`-th value ever taken from the port, unconstrained
(10_state.md R24; 93_implementation_defined.md U1, treatment "draw"). A free value: no body. DESIGN CHOICE (log 2), safe. -/
opaque freeDraw : Nat → Word

/-- `fadd32` of operands of which one is not finite: 42_matmul.md R165 defines finite operands only. A free value: no body.
DESIGN CHOICE (log 8), safe. -/
opaque faddNonFinite : Word → Word → Word

end Sys2Proof.Config
end

