-- ==== Sys2Proof/Syntax.lean ====
section
/-! DEFINITION. The command words as syntax: one constructor per row of spec/opcode_table.json (30_encoding.md R71, R73, R75). -/

namespace Sys2Proof

/-- The sixteen rows of the opcode map (30_encoding.md R71). Every constructor carries the `ne` operand, bits 7:4 of the
command word, as the unsigned number the rules use (R67). The reserved rows carry it too, since the word stays readable in
`CMD` (60_exceptions.md R180), and never look at it (R73). -/
inductive Instr where
  | downcast (ne : Nat)
  | downcastMatrix (ne : Nat)
  | decode (ne : Nat)
  | approxMultiply (ne : Nat)
  | approxMatmul (ne : Nat)
  | reserved5 (ne : Nat)
  | reserved6 (ne : Nat)
  | reserved7 (ne : Nat)
  | reserved8 (ne : Nat)
  | reserved9 (ne : Nat)
  | reservedA (ne : Nat)
  | reservedB (ne : Nat)
  | reservedC (ne : Nat)
  | reservedD (ne : Nat)
  | reservedE (ne : Nat)
  | reservedF (ne : Nat)
  deriving DecidableEq, Repr

/-- The operand `ne` of a command word (30_encoding.md R70). -/
def Instr.ne : Instr → Nat
  | .downcast n => n
  | .downcastMatrix n => n
  | .decode n => n
  | .approxMultiply n => n
  | .approxMatmul n => n
  | .reserved5 n => n
  | .reserved6 n => n
  | .reserved7 n => n
  | .reserved8 n => n
  | .reserved9 n => n
  | .reservedA n => n
  | .reservedB n => n
  | .reservedC n => n
  | .reservedD n => n
  | .reservedE n => n
  | .reservedF n => n

/-- The reserved rows (30_encoding.md R73). -/
def Instr.isReserved : Instr → Bool
  | .downcast _ => false
  | .downcastMatrix _ => false
  | .decode _ => false
  | .approxMultiply _ => false
  | .approxMatmul _ => false
  | .reserved5 _ => true
  | .reserved6 _ => true
  | .reserved7 _ => true
  | .reserved8 _ => true
  | .reserved9 _ => true
  | .reservedA _ => true
  | .reservedB _ => true
  | .reservedC _ => true
  | .reservedD _ => true
  | .reservedE _ => true
  | .reservedF _ => true

end Sys2Proof
end

