-- ==== Sys2Proof/WellFormed.lean ====
section
/-! DEFINITION. Which terms of Instr are command words (00_scope.md R7 `NEW`; 30_encoding.md R67). -/

namespace Sys2Proof

/-- A term is a command word when its `ne` fits the 4-bit field (30_encoding.md R67). Every such value is well formed, also
0 and 7 to 15: those raise `InvalidFormat` when the command runs (R72). -/
abbrev Instr.WellFormed (i : Instr) : Prop := i.ne < 2 ^ Config.neWidth

end Sys2Proof
end

