-- ==== Sys2Proof/Decode.lean ====
section
/-! DEFINITION. Decoding and encoding of the 8-bit command word (30_encoding.md R70, R71, R73; spec/opcode_table.json). -/

namespace Sys2Proof

/-- Why a sequence of bytes holds no command word. -/
inductive DecodeError where
  /-- there is no byte to read; every single byte decodes (30_encoding.md R73, decision D4) -/
  | noCommandByte
  deriving DecidableEq, Repr

/-- The `op` field, bits 3:0 of a command word (30_encoding.md R70). -/
def opField (c : Byte) : Nat := c.toNat % 16

/-- The `ne` field, bits 7:4 of a command word, unsigned (30_encoding.md R67, R70). -/
def neField (c : Byte) : Nat := c.toNat / 16

/-- The operation an `op` value selects (30_encoding.md R71): 0x0 to 0x4 the five operations, 0x5 to 0xF reserved. `op` is
four bits, so the last arm is 0xF alone. -/
def decodeOp (op ne : Nat) : Instr :=
  match op with
  | 0x0 => .downcast ne
  | 0x1 => .downcastMatrix ne
  | 0x2 => .decode ne
  | 0x3 => .approxMultiply ne
  | 0x4 => .approxMatmul ne
  | 0x5 => .reserved5 ne
  | 0x6 => .reserved6 ne
  | 0x7 => .reserved7 ne
  | 0x8 => .reserved8 ne
  | 0x9 => .reserved9 ne
  | 0xA => .reservedA ne
  | 0xB => .reservedB ne
  | 0xC => .reservedC ne
  | 0xD => .reservedD ne
  | 0xE => .reservedE ne
  | _ => .reservedF ne

/-- The instruction a command word stands for; each of the 256 words is one (30_encoding.md R70; 60_exceptions.md R185). -/
def decodeWord (c : Byte) : Instr := decodeOp (opField c) (neField c)

/-- Decoding of a byte sequence: the first byte is the whole command word (30_encoding.md R70: one length, no prefixes). -/
def decode : List Byte → Except DecodeError (Instr × List Byte)
  | [] => .error .noCommandByte
  | c :: rest => .ok (decodeWord c, rest)

/-- The `op` value of a row (30_encoding.md R71, R73). -/
def opOf : Instr → Nat
  | .downcast _ => 0x0
  | .downcastMatrix _ => 0x1
  | .decode _ => 0x2
  | .approxMultiply _ => 0x3
  | .approxMatmul _ => 0x4
  | .reserved5 _ => 0x5
  | .reserved6 _ => 0x6
  | .reserved7 _ => 0x7
  | .reserved8 _ => 0x8
  | .reserved9 _ => 0x9
  | .reservedA _ => 0xA
  | .reservedB _ => 0xB
  | .reservedC _ => 0xC
  | .reservedD _ => 0xD
  | .reservedE _ => 0xE
  | .reservedF _ => 0xF

/-- The command word of an instruction, `(ne << 4) | op` (30_encoding.md R75); `ne` above 15 does not fit and is cut. -/
def encodeWord (i : Instr) : Byte := BitVec.ofNat 4 i.ne ++ BitVec.ofNat 4 (opOf i)

/-- The words of an instruction: one byte (30_encoding.md R70). -/
def encode (i : Instr) : List Byte := [encodeWord i]

/-- The decoder on a row of spec/opcode_table.json: the low `nbits` bits of `w` are the command byte, bits above are 0. -/
def decodeTableWord (nbits w : Nat) : Option Instr :=
  match decode [BitVec.ofNat 8 (w % 2 ^ nbits)] with
  | .ok (i, _) => some i
  | .error _ => none

end Sys2Proof
end

