-- ==== Sys2Proof/Machine/State.lean ====
section
/-! DEFINITION. The state of the core, what may come from outside, the reasons a step can stop, and reset
(10_state.md R13 to R28). -/

namespace Sys2Proof.Machine

/-- The five buffers, each its own address space (10_state.md R22; 20_memory.md R40). -/
inductive BufferId where
  | xf | yf | xq | yq | zf
  deriving DecidableEq, Repr

/-- A buffer of `w`-bit elements: the written elements as (index, element) pairs, indices strictly rising. An index that is
not listed is an unwritten element and has no value (10_state.md R28; 93_implementation_defined.md U5). -/
abbrev Buffer (w : Nat) := List (Nat × BitVec w)

/-- The draw port `rnd` (10_state.md R24). `queue` holds the values the port will deliver next, as far as they are known
(from the last `RND` line of 30_encoding.md R76); beyond them every draw is `Config.freeDraw` of the count of draws taken
(log 2). -/
structure DrawPort where
  queue : List Word
  taken : Nat
  deriving DecidableEq, Repr

/-- What can come from outside: the host's accesses (10_state.md R12, R13, R22; 30_encoding.md R76), a statement about the
draw source (R24; 30_encoding.md R76 `RND`) and reset (70_reset_and_hazards.md R210). -/
inductive Input where
  /-- `WR <reg>, <value>`; register 0 is `CMD` and starts a command (10_state.md R14) -/
  | writeReg (reg value : Nat)
  /-- `RD <reg>` -/
  | readReg (reg : Nat)
  /-- `WR <buf>[<index>], <value>` -/
  | writeBuf (buf : BufferId) (index : Nat) (value : Word)
  /-- `RD <buf>[<index>]` -/
  | readBuf (buf : BufferId) (index : Nat)
  /-- `RND <d0>, <d1>, ...`: not a host access; from here on these are the values the port delivers next (log 2) -/
  | rnd (draws : List Word)
  /-- the reset of 70_reset_and_hazards.md R210 -/
  | reset
  deriving DecidableEq, Repr

/-- The state. The fifteen registers of 10_state.md R13 in the rule's order, the five buffers of R22, then the draw port, the
parameter `DIMW`, and the host's side: the inputs to come and the values its reads returned, newest first (log 1). The
dimension registers are numbers, kept below `2 ^ DIMW` by the one operation that writes them (log 4). -/
structure State where
  cmd : Byte
  status : Byte
  opa : Word
  opb : Byte
  res : Word
  dsign : BitVec 1
  dexp : BitVec 8
  dfrac : BitVec 6
  dsig : BitVec 7
  xrows : Nat
  xcols : Nat
  yrows : Nat
  ycols : Nat
  zrows : Nat
  zcols : Nat
  xf : Buffer 32
  yf : Buffer 32
  xq : Buffer 8
  yq : Buffer 8
  zf : Buffer 32
  rnd : DrawPort
  params : Config.Params
  inputs : List Input
  received : List Nat
  deriving DecidableEq, Repr

/-- Why the machine stops with a fault. -/
inductive Fault where
  /-- `DOWNCAST_MATRIX` or `APPROX_MATMUL` reads an element never written since reset (10_state.md R28, U5 "fault"). Safe:
  the spec gives no result and nothing is provable past it. -/
  | unwrittenElement (buf : BufferId) (index : Nat)
  deriving DecidableEq, Repr

/-- Why a step does not exist in the model. -/
inductive Refusal where
  /-- an instruction without a meaning; no arm of exec answers it. Safe. -/
  | notModelled (mnemonic : String)
  /-- a host access to a register number of 15 or more (10_state.md R13, U9 "refuse"). Safe. -/
  | noSuchRegister (reg : Nat)
  /-- a host access to a buffer index at or beyond `2 ^ AW` (20_memory.md R42, U9 "refuse"). Safe. -/
  | noSuchElement (buf : BufferId) (index : Nat)
  /-- a host read of an element never written since reset (10_state.md R28, U5 "refuse"). Safe. -/
  | unwrittenHostRead (buf : BufferId) (index : Nat)
  /-- a host write to `XQ`, `YQ` or `ZF`, which 10_state.md R22 does not make host-writable (log 7). Safe. -/
  | bufferNotHostWritable (buf : BufferId)
  /-- a host access other than a read of `STATUS` while `BUSY` is 1 (70_reset_and_hazards.md R212, U8 "refuse"). Safe. -/
  | hostAccessWhileBusy
  deriving DecidableEq, Repr

/-- The state right after reset (10_state.md R27; 70_reset_and_hazards.md R210): every register 0, every element unwritten,
no draw taken. The parameter has its reference value (log 3) and nothing is pending outside (log 1, log 2). -/
def State.reset : State where
  cmd := 0x00#8
  status := 0x00#8
  opa := 0x00000000#32
  opb := 0x00#8
  res := 0x00000000#32
  dsign := 0#1
  dexp := 0x00#8
  dfrac := 0#6
  dsig := 0#7
  xrows := 0
  xcols := 0
  yrows := 0
  ycols := 0
  zrows := 0
  zcols := 0
  xf := []
  yf := []
  xq := []
  yq := []
  zf := []
  rnd := { queue := [], taken := 0 }
  params := Config.referenceParams
  inputs := []
  received := []

end Sys2Proof.Machine
end

