-- ==== Sys2Proof/Machine/Operands.lean ====
section
/-! DEFINITION. The operand formats: FP32 patterns, FP8 bytes and the format quantities of `fmt(ne)`
(30_encoding.md R60 to R67). Every quantity is an unbounded integer (00_scope.md R8). -/

namespace Sys2Proof.Machine

/-- The test every defined command makes on `ne` (60_exceptions.md R181). -/
def neValid (ne : Nat) : Bool := 1 ≤ ne && ne ≤ 6

/-- `nm`, the mantissa width (30_encoding.md R63). -/
def manWidth (ne : Nat) : Nat := 7 - ne

/-- `bias`, the target's exponent bias (30_encoding.md R63). -/
def bias (ne : Nat) : Nat := 2 ^ (ne - 1) - 1

/-- `EMAX`, the largest exponent field (30_encoding.md R63). -/
def expMax (ne : Nat) : Nat := 2 ^ ne - 1

/-- `MMAX`, the largest mantissa field (30_encoding.md R63). -/
def manMax (ne : Nat) : Nat := 2 ^ manWidth ne - 1

/-- `sh`, the number of bits truncation discards (30_encoding.md R63). -/
def truncShift (ne : Nat) : Nat := 23 - manWidth ne

/-- `lm`, the correction exponent, a step function of the mantissa width (30_encoding.md R63; 41_lmul.md R142). -/
def corrExp (ne : Nat) : Nat :=
  if manWidth ne ≤ 3 then manWidth ne else if manWidth ne = 4 then 3 else 4

/-- `EXPMASK` (30_encoding.md R63, R64). -/
def expMask (ne : Nat) : Nat := expMax ne <<< manWidth ne

/-- `MANMASK` (30_encoding.md R63, R64). -/
def manMask (ne : Nat) : Nat := manMax ne

/-- `s`, the sign of an FP32 pattern, bit 31 (30_encoding.md R60). -/
def fp32Sign (v : Word) : BitVec 1 := v.extractLsb' 31 1

/-- `e8`, the exponent field of an FP32 pattern, bits 30:23 (30_encoding.md R60). -/
def fp32Exp (v : Word) : Nat := (v.extractLsb' 23 8).toNat

/-- `m23`, the mantissa field of an FP32 pattern, bits 22:0 (30_encoding.md R60). -/
def fp32Man (v : Word) : Nat := (v.extractLsb' 0 23).toNat

/-- The FP32 pattern of three fields, `{s, e8, m23}` (30_encoding.md R60). -/
def fp32Pack (s : BitVec 1) (e8 : BitVec 8) (m23 : BitVec 23) : Word := s ++ e8 ++ m23

/-- A finite pattern: exponent field below 255 (30_encoding.md R60, R61). -/
def fp32Finite (v : Word) : Bool := fp32Exp v < 255

/-- The sign of an FP8 byte, bit 7 (30_encoding.md R62). -/
def fp8Sign (b : Byte) : BitVec 1 := b.extractLsb' 7 1

/-- `ef`, the exponent field of an FP8 byte (30_encoding.md R62, R64). -/
def fp8Exp (b : Byte) (ne : Nat) : Nat := (b.toNat &&& expMask ne) >>> manWidth ne

/-- `mf`, the mantissa field of an FP8 byte (30_encoding.md R62, R64). -/
def fp8Man (b : Byte) (ne : Nat) : Nat := b.toNat &&& manMask ne

/-- The byte operand of `DECODE` and `APPROX_MULTIPLY`: `OPA[7:0]`, the upper bits ignored (10_state.md R16). -/
def opaByte (s : State) : Byte := s.opa.extractLsb' 0 8

end Sys2Proof.Machine
end

