-- ==== Sys2Proof/Machine/Fadd.lean ====
section
/-! DEFINITION. `fadd32`, binary32 addition to nearest, ties to even (42_matmul.md R165), in exact integers of the unit
`2^-149`. -/

namespace Sys2Proof.Machine

/-- The magnitude of a finite pattern in units of `2^-149` (30_encoding.md R60, R61). -/
def fixedMag (v : Word) : Nat :=
  if fp32Exp v = 0 then fp32Man v else (2 ^ 23 + fp32Man v) <<< (fp32Exp v - 1)

/-- `val32` of a finite pattern in units of `2^-149` (30_encoding.md R60, R61). -/
def fixedVal (v : Word) : Int :=
  if fp32Sign v = 1#1 then -(fixedMag v : Int) else (fixedMag v : Int)

/-- `y / 2^k` rounded to the nearest integer, a tie to the even one (42_matmul.md R165). -/
def roundEven (y k : Nat) : Nat :=
  let q := y >>> k
  let r := y % 2 ^ k
  if 2 * r < 2 ^ k then q
  else if 2 * r > 2 ^ k then q + 1
  else q + q % 2

/-- `e + 126`, where `e` is `floor(log2 y)` of the rule and not below -126; `y` is in units of `2^-149`, and the unit of the
last place is `2^(e - 23)`, that is `2^(e + 126)` of these units (42_matmul.md R165). -/
def scaleExp (y : Nat) : Nat := Nat.log2 y - 23

/-- `n` of the rule, before the test against `2^24` (42_matmul.md R165). -/
def roundedSig (y : Nat) : Nat := roundEven y (scaleExp y)

/-- The pattern of a sign and a rounded significand `n` at exponent `k = e + 126` (42_matmul.md R165): infinity above
`e = 127`, a subnormal below `2^23`, else a normal number. -/
def packRounded (sgn : BitVec 1) (n k : Nat) : Word :=
  if k > 253 then fp32Pack sgn 0xFF#8 0#23
  else if n < 2 ^ 23 then fp32Pack sgn 0#8 (BitVec.ofNat 23 n)
  else fp32Pack sgn (BitVec.ofNat 8 (k + 1)) (BitVec.ofNat 23 (n - 2 ^ 23))

/-- The pattern nearest to the magnitude `y > 0` (42_matmul.md R165), a significand of `2^24` moving into the next binade. -/
def packMagnitude (sgn : BitVec 1) (y : Nat) : Word :=
  if roundedSig y = 2 ^ 24 then packRounded sgn (2 ^ 23) (scaleExp y + 1)
  else packRounded sgn (roundedSig y) (scaleExp y)

/-- `fadd32` of two finite patterns (42_matmul.md R165). -/
def faddFinite (a b : Word) : Word :=
  let x := fixedVal a + fixedVal b
  if x = 0 then
    (if a = 0x80000000#32 ∧ b = 0x80000000#32 then 0x80000000#32 else 0x00000000#32)
  else packMagnitude (if x < 0 then 1#1 else 0#1) x.natAbs

/-- `fadd32` (42_matmul.md R165). The rule is for finite operands; outside them the value is free (log 8). -/
def fadd32 (a b : Word) : Word :=
  if fp32Finite a && fp32Finite b then faddFinite a b else Config.faddNonFinite a b

end Sys2Proof.Machine
end

