-- ==== Sys2Proof/Machine/Flags.lean ====
section
/-! DEFINITION. The status register: error codes, `ERR` and `BUSY` (10_state.md R15; 60_exceptions.md R180). The core has no
other flag. -/

namespace Sys2Proof.Machine

/-- The outcomes a command can report (60_exceptions.md R180). -/
inductive ErrKind where
  | ok
  | invalidFormat
  | emptyInput
  | dimensionMismatch
  | illegalCommand
  deriving DecidableEq, Repr

/-- The code of an outcome in `STATUS.ERR` (60_exceptions.md R180). -/
def errCode : ErrKind → BitVec 3
  | .ok => 0
  | .invalidFormat => 1
  | .emptyInput => 2
  | .dimensionMismatch => 3
  | .illegalCommand => 4

/-- The word of `STATUS`: `BUSY` in bit 7, zeros in 6:3, `ERR` in 2:0 (10_state.md R15). -/
def statusWord (busy : BitVec 1) (err : BitVec 3) : Byte := busy ++ 0#4 ++ err

/-- `STATUS.ERR` (10_state.md R15). -/
def statusErr (status : Byte) : BitVec 3 := status.extractLsb' 0 3

/-- `STATUS.BUSY` (10_state.md R15). -/
def statusBusy (status : Byte) : Bool := status.getLsbD 7

end Sys2Proof.Machine
end

