-- ==== Sys2Proof/Machine/Ops.lean ====
section
/-! DEFINITION. The shared operations over buffers, the draw port, the registers and the status, and raising an error
(10_state.md R13 to R28; 20_memory.md R40 to R46; 60_exceptions.md R190). -/

namespace Sys2Proof.Machine

/-! ### Buffers -/

/-- The element at an index, if it was written since reset (10_state.md R28). -/
def Buffer.read {w : Nat} : Buffer w → Nat → Option (BitVec w)
  | [], _ => none
  | (a, v) :: rest, i => if i = a then some v else Buffer.read rest i

/-- `MemWrite(S:i, v)`: one whole element (20_memory.md R44), the other elements unchanged, the listing in rising order. -/
def Buffer.write {w : Nat} : Buffer w → Nat → BitVec w → Buffer w
  | [], i, v => [(i, v)]
  | (a, u) :: rest, i, v =>
    if i < a then (i, v) :: (a, u) :: rest
    else if i = a then (i, v) :: rest
    else (a, u) :: Buffer.write rest i v

/-- The canonical form of one buffer: indices strictly rising. An unlisted element has no value, so no entry can repeat
what an unlisted one reads as. -/
abbrev Buffer.wf {w : Nat} (b : Buffer w) : Prop := b.Pairwise (fun x y => x.1 < y.1)

/-- Every listed index is inside the buffer's `n` elements (10_state.md R22; 20_memory.md R42). -/
abbrev Buffer.within {w : Nat} (b : Buffer w) (n : Nat) : Prop := ∀ e ∈ b, e.1 < n

/-- The canonical form of the five buffers. -/
abbrev Memory.wf (s : State) : Prop :=
  s.xf.wf ∧ s.yf.wf ∧ s.xq.wf ∧ s.yq.wf ∧ s.zf.wf

/-- The number of elements of a buffer, `2 ^ AW` with `AW = 2 * DIMW` (00_scope.md R7; 10_state.md R22). -/
def bufferSize (s : State) : Nat := 2 ^ (2 * s.params.dimw)

/-- `MemRead(S:i)` of a command: an unwritten element faults the run (10_state.md R28, U5). -/
def readElement {w : Nat} (id : BufferId) (b : Buffer w) (i : Nat) : Except Fault (BitVec w) :=
  match b.read i with
  | some v => .ok v
  | none => .error (.unwrittenElement id i)

/-- The row-major index of element `(row, col)` (20_memory.md R41, R42). -/
def matrixIndex (columns row col : Nat) : Nat := row * columns + col

/-! ### The draw port -/

/-- The value the `n`-th draw from now takes, counting from 0 (10_state.md R24): the queued value, or the free value of its
number (log 2). -/
def drawValue (p : DrawPort) (n : Nat) : Word :=
  match p.queue[n]? with
  | some d => d
  | none => Config.freeDraw (p.taken + n)

/-- The port after `n` values were consumed (10_state.md R24; 40_quantizer.md R123). -/
def drawAdvance (p : DrawPort) (n : Nat) : DrawPort :=
  { queue := p.queue.drop n, taken := p.taken + n }

/-- The port will deliver these values next (30_encoding.md R76 `RND`). What an earlier line stated and no command took is
no longer known, since a line speaks of the draws of the following command only (log 2). -/
def stateDraws (draws : List Word) (s : State) : State :=
  { s with rnd := { queue := draws, taken := s.rnd.taken } }

/-! ### The start and the end of a command -/

/-- A host write of `c` to `CMD`: `c` is stored and `BUSY` goes to 1 (10_state.md R14, R15). -/
def startCommand (c : Byte) (s : State) : State :=
  { s with cmd := c, status := statusWord 1#1 (statusErr s.status) }

/-- The end of a command: `ERR` takes the outcome's code, `BUSY` goes to 0 (10_state.md R15; 60_exceptions.md R190). -/
def endCommand (e : ErrKind) (s : State) : State :=
  { s with status := statusWord 0#1 (errCode e) }

/-- Taking an error: the code goes to `ERR`, `BUSY` to 0 and nothing else changes; nothing is saved and there is no handler
(60_exceptions.md R190). There is no return operation: the next command overwrites `ERR` (R192). -/
def raiseError (e : ErrKind) (s : State) : Host.Outcome State Fault Refusal := .next (endCommand e s)

/-- The end of a successful command: `STATUS.ERR <- 0` (10_state.md R15; 60_exceptions.md R191). -/
def complete (s : State) : Host.Outcome State Fault Refusal := .next (endCommand .ok s)

/-! ### The register file -/

/-- A host read of a register, as an unsigned number (10_state.md R13); numbers of 15 and above do not exist. -/
def readRegister (s : State) (reg : Nat) : Option Nat :=
  match reg with
  | 0 => some s.cmd.toNat
  | 1 => some s.status.toNat
  | 2 => some s.opa.toNat
  | 3 => some s.opb.toNat
  | 4 => some s.res.toNat
  | 5 => some s.dsign.toNat
  | 6 => some s.dexp.toNat
  | 7 => some s.dfrac.toNat
  | 8 => some s.dsig.toNat
  | 9 => some s.xrows
  | 10 => some s.xcols
  | 11 => some s.yrows
  | 12 => some s.ycols
  | 13 => some s.zrows
  | 14 => some s.zcols
  | _ => none

/-- The low `DIMW` bits of a value written to a dimension register (10_state.md R13, R20). -/
def dimBits (s : State) (value : Nat) : Nat := value % 2 ^ s.params.dimw

/-- A host write of a register other than `CMD` (10_state.md R13): a value wider than the register keeps its low bits, a
write to a register without "W" is ignored. `CMD` is register 0 and starts a command (`fetch`); 15 and above do not exist. -/
def writeRegister (s : State) (reg value : Nat) : Option State :=
  match reg with
  | 1 => some s
  | 2 => some { s with opa := BitVec.ofNat 32 value }
  | 3 => some { s with opb := BitVec.ofNat 8 value }
  | 4 => some s
  | 5 => some s
  | 6 => some s
  | 7 => some s
  | 8 => some s
  | 9 => some { s with xrows := dimBits s value }
  | 10 => some { s with xcols := dimBits s value }
  | 11 => some { s with yrows := dimBits s value }
  | 12 => some { s with ycols := dimBits s value }
  | 13 => some s
  | 14 => some s
  | _ => none

end Sys2Proof.Machine
end

