-- ==== Sys2Proof/Machine/Lmul.lean ====
section
/-! DEFINITION. The unit LMU (41_lmul.md): the decoder (R131) and the approximate multiply (R140 to R145), and the commands
`DECODE` (R130) and `APPROX_MULTIPLY` (R140). -/

namespace Sys2Proof.Machine

/-- The decoded tuple `(sign, E, f, M)` (10_state.md R19; 41_lmul.md R131). `f` and `M` are the exact rationals
`frac / 2^nm` and `sig / 2^nm`. -/
structure Decoded where
  sign : BitVec 1
  exp : Int
  frac : Nat
  sig : Nat
  deriving DecidableEq, Repr

/-- `decode(b, ne)` (41_lmul.md R131 to R133). `f` is the mantissa field for every exponent field, 0 included (R135, D12). -/
def decodeFp8 (b : Byte) (ne : Nat) : Decoded :=
  { sign := fp8Sign b
    exp := if fp8Exp b ne = 0 then 0 else (fp8Exp b ne : Int) - (bias ne : Int)
    frac := fp8Man b ne
    sig := if fp8Exp b ne = 0 then 0 else 2 ^ manWidth ne + fp8Man b ne }

/-- A rational with denominator `2^nm` scaled by 64 (10_state.md R19; decision D13). -/
def scale64 (ne n : Nat) : Nat := n <<< (6 - manWidth ne)

/-- `DECODE ne` (41_lmul.md R130). -/
def execDecode (ne : Nat) (s : State) : Host.Outcome State Fault Refusal :=
  if neValid ne then
    complete { s with
      dsign := (decodeFp8 (opaByte s) ne).sign
      dexp := BitVec.ofInt 8 (decodeFp8 (opaByte s) ne).exp
      dfrac := BitVec.ofNat 6 (scale64 ne (decodeFp8 (opaByte s) ne).frac)
      dsig := BitVec.ofNat 7 (scale64 ne (decodeFp8 (opaByte s) ne).sig) }
  else raiseError .invalidFormat s

/-- `A`, the approximate mantissa sum in units of `2^-nm` (41_lmul.md R143). -/
def mantissaSum (bx bY : Byte) (ne : Nat) : Nat :=
  2 ^ manWidth ne + (decodeFp8 bx ne).frac + (decodeFp8 bY ne).frac + 2 ^ (manWidth ne - corrExp ne)

/-- `c1`, the carry of the sum into the next binade (41_lmul.md R145). -/
def mantissaCarry (bx bY : Byte) (ne : Nat) : Nat :=
  if mantissaSum bx bY ne ≥ 2 ^ (manWidth ne + 1) then 1 else 0

/-- `E32`, the product's biased exponent (41_lmul.md R145). -/
def productExp (bx bY : Byte) (ne : Nat) : Int :=
  127 + (decodeFp8 bx ne).exp + (decodeFp8 bY ne).exp + (mantissaCarry bx bY ne : Int)

/-- `F32`, the product's mantissa field (41_lmul.md R145). -/
def productMan (bx bY : Byte) (ne : Nat) : Nat :=
  (mantissaSum bx bY ne - 2 ^ (manWidth ne + mantissaCarry bx bY ne)) <<< (23 - manWidth ne - mantissaCarry bx bY ne)

/-- `approx_multiply(bx, by, ne)` as its 32-bit pattern (41_lmul.md R140, R141, R145). -/
def approxMultiply (bx bY : Byte) (ne : Nat) : Word :=
  fp32Pack ((decodeFp8 bx ne).sign ^^^ (decodeFp8 bY ne).sign) (BitVec.ofInt 8 (productExp bx bY ne))
    (BitVec.ofNat 23 (productMan bx bY ne))

/-- `APPROX_MULTIPLY ne` (41_lmul.md R140). -/
def execApproxMultiply (ne : Nat) (s : State) : Host.Outcome State Fault Refusal :=
  if neValid ne then complete { s with res := approxMultiply (opaByte s) s.opb ne }
  else raiseError .invalidFormat s

end Sys2Proof.Machine
end

