-- ==== Sys2Proof/Machine/Quantizer.lean ====
section
/-! DEFINITION. The unit QNT (40_quantizer.md): the pure function `downcast` step by step (R101 to R112), and the commands
`DOWNCAST` (R100) and `DOWNCAST_MATRIX` (R121). -/

namespace Sys2Proof.Machine

/-- The three paths (40_quantizer.md R103). -/
inductive QuantPath where
  | subnormal | overflow | inRange
  deriving DecidableEq, Repr

/-- `ue = e8 - 127`, the original unbiased exponent (40_quantizer.md R102). -/
def unbiasedExp (v : Word) : Int := (fp32Exp v : Int) - 127

/-- `re = ue + bias`, the rebiased exponent (40_quantizer.md R102). -/
def rebiasedExp (v : Word) (ne : Nat) : Int := unbiasedExp v + (bias ne : Int)

/-- Path selection, tested in the rule's order (40_quantizer.md R103). -/
def quantPath (v : Word) (ne : Nat) : QuantPath :=
  if rebiasedExp v ne < 1 then .subnormal
  else if rebiasedExp v ne ≥ 2 ^ ne then .overflow
  else .inRange

/-- `et`, the target exponent field of each path (40_quantizer.md R103, R104, R105). -/
def targetExp (v : Word) (ne : Nat) : Nat :=
  match quantPath v ne with
  | .subnormal => 0
  | .overflow => expMax ne
  | .inRange => (rebiasedExp v ne).toNat

/-- `w`, the working mantissa of each path (40_quantizer.md R103, R104, R105). The subnormal shift uses the original
exponent, and a count of 24 or more gives 0 (R104). -/
def workMantissa (v : Word) (ne : Nat) : Nat :=
  match quantPath v ne with
  | .subnormal => (fp32Man v ||| 0x800000) >>> (1 - unbiasedExp v).toNat
  | .overflow => 0x7FFFFF
  | .inRange => fp32Man v

/-- Step 5, the clamp, outside the subnormal path (40_quantizer.md R106; 90_conflicts.md C1). -/
def clampExp (path : QuantPath) (ne et : Nat) : Nat :=
  match path with
  | .subnormal => et
  | .overflow => min (max et 1) (expMax ne)
  | .inRange => min (max et 1) (expMax ne)

/-- Step 6: the truncated mantissa `t` (40_quantizer.md R108). -/
def truncMantissa (ne w : Nat) : Nat := w >>> truncShift ne

/-- Step 6: the discarded remainder `rem` (40_quantizer.md R108). -/
def truncRemainder (ne w : Nat) : Nat := w % 2 ^ truncShift ne

/-- `r`, the top `sh` bits of the draw (40_quantizer.md R109). -/
def drawTop (ne : Nat) (d : Word) : Nat := d.toNat >>> (32 - truncShift ne)

/-- Step 7: whether the draw rounds up (40_quantizer.md R109). -/
def roundsUp (ne w : Nat) (d : Word) : Bool :=
  drawTop ne d < truncRemainder ne w && truncMantissa ne w != manMax ne

/-- Step 7: the mantissa after stochastic rounding (40_quantizer.md R109). -/
def roundMantissa (ne w : Nat) (d : Word) : Nat :=
  truncMantissa ne w + (if roundsUp ne w d then 1 else 0)

/-- Step 8, the carry into the exponent, which step 7's guard never lets happen (40_quantizer.md R110; 90_conflicts.md
C3): exponent field and mantissa field. -/
def carryMantissa (ne et t : Nat) : Nat × Nat :=
  if t > manMax ne then
    (if et + 1 > expMax ne then (expMax ne, manMax ne) else (et + 1, 0))
  else (et, t)

/-- Step 9, the byte `(s << 7) | (et << nm) | t` (40_quantizer.md R111). -/
def composeByte (s : BitVec 1) (ne et t : Nat) : Byte :=
  BitVec.ofNat 8 ((s.toNat <<< 7) ||| (et <<< manWidth ne) ||| t)

/-- `downcast(v, ne, d)`: the whole quantizer (40_quantizer.md R112, with the steps R106 and R110 kept). -/
def downcast (v : Word) (ne : Nat) (d : Word) : Byte :=
  let et := clampExp (quantPath v ne) ne (targetExp v ne)
  let t := roundMantissa ne (workMantissa v ne) d
  let (e, m) := carryMantissa ne et t
  composeByte (fp32Sign v) ne e m

/-- `DOWNCAST ne` (40_quantizer.md R100): one draw, `RES` takes the byte zero-extended (10_state.md R18). -/
def execDowncast (ne : Nat) (s : State) : Host.Outcome State Fault Refusal :=
  if neValid ne then
    complete { s with res := (downcast s.opa ne (drawValue s.rnd 0)).setWidth 32, rnd := drawAdvance s.rnd 1 }
  else raiseError .invalidFormat s

/-- The element loop over the first `n` elements of `src`: element `k` is quantized with the draw numbered `base + k`
(40_quantizer.md R121, R122; 42_matmul.md R162). -/
def quantizeLoop (id : BufferId) (src : Buffer 32) (dst : Buffer 8) (ne : Nat) (p : DrawPort) (base : Nat) :
    Nat → Except Fault (Buffer 8)
  | 0 => .ok dst
  | n + 1 =>
    match quantizeLoop id src dst ne p base n with
    | .error f => .error f
    | .ok q =>
      match readElement id src n with
      | .error f => .error f
      | .ok v => .ok (q.write n (downcast v ne (drawValue p (base + n))))

/-- Whether a matrix of this shape is empty (40_quantizer.md R120; 60_exceptions.md R183). -/
def isEmptyShape (rows cols : Nat) : Bool := rows = 0 || cols = 0

/-- `DOWNCAST_MATRIX ne` (40_quantizer.md R121): emptiness first, then `ne` (60_exceptions.md R187), then the loop. -/
def execDowncastMatrix (ne : Nat) (s : State) : Host.Outcome State Fault Refusal :=
  if isEmptyShape s.xrows s.xcols then raiseError .emptyInput s
  else if !neValid ne then raiseError .invalidFormat s
  else
    match quantizeLoop .xf s.xf s.xq ne s.rnd 0 (s.xrows * s.xcols) with
    | .error f => .fault f
    | .ok q => complete { s with xq := q, rnd := drawAdvance s.rnd (s.xrows * s.xcols) }

end Sys2Proof.Machine
end

