-- ==== Sys2Proof/Machine/Matmul.lean ====
section
/-! DEFINITION. The unit MMO (42_matmul.md): the loop nest (R163) and the command `APPROX_MATMUL` (R160). -/

namespace Sys2Proof.Machine

/-- `ACC` of output element `(i, j)` after its first `k` products, `+0.0` before the first, in ascending `k`
(42_matmul.md R160, R163; 10_state.md R23). -/
def macLoop (xq yq : Buffer 8) (ne kk n i j : Nat) : Nat → Except Fault Word
  | 0 => .ok 0x00000000#32
  | k + 1 =>
    match macLoop xq yq ne kk n i j k with
    | .error f => .error f
    | .ok acc =>
      match readElement .xq xq (matrixIndex kk i k) with
      | .error f => .error f
      | .ok bx =>
        match readElement .yq yq (matrixIndex n k j) with
        | .error f => .error f
        | .ok bY => .ok (fadd32 acc (approxMultiply bx bY ne))

/-- The first `p` output elements in row-major order, `i = p / n` and `j = p % n` being the loop indices of element `p`
(42_matmul.md R160; the order of the outputs is free, R163). -/
def productLoop (xq yq : Buffer 8) (zf : Buffer 32) (ne kk n : Nat) : Nat → Except Fault (Buffer 32)
  | 0 => .ok zf
  | p + 1 =>
    match productLoop xq yq zf ne kk n p with
    | .error f => .error f
    | .ok z =>
      match macLoop xq yq ne kk n (p / n) (p % n) kk with
      | .error f => .error f
      | .ok acc => .ok (z.write (matrixIndex n (p / n) (p % n)) acc)

/-- Phases 1 and 2 of `APPROX_MATMUL`, after the tests (42_matmul.md R160, R162, R163). -/
def multiplyMatrices (ne : Nat) (s : State) : Host.Outcome State Fault Refusal :=
  match quantizeLoop .xf s.xf s.xq ne s.rnd 0 (s.xrows * s.xcols) with
  | .error f => .fault f
  | .ok xq =>
    match quantizeLoop .yf s.yf s.yq ne s.rnd (s.xrows * s.xcols) (s.yrows * s.ycols) with
    | .error f => .fault f
    | .ok yq =>
      match productLoop xq yq s.zf ne s.xcols s.ycols (s.xrows * s.ycols) with
      | .error f => .fault f
      | .ok zf =>
        complete { s with
          xq := xq
          yq := yq
          zf := zf
          zrows := s.xrows
          zcols := s.ycols
          rnd := drawAdvance s.rnd (s.xrows * s.xcols + s.yrows * s.ycols) }

/-- `APPROX_MATMUL ne` (42_matmul.md R160), its tests in the order of R161 and 60_exceptions.md R187. -/
def execApproxMatmul (ne : Nat) (s : State) : Host.Outcome State Fault Refusal :=
  if isEmptyShape s.xrows s.xcols then raiseError .emptyInput s
  else if !neValid ne then raiseError .invalidFormat s
  else if isEmptyShape s.yrows s.ycols then raiseError .emptyInput s
  else if s.xcols != s.yrows then raiseError .dimensionMismatch s
  else multiplyMatrices ne s

end Sys2Proof.Machine
end

