-- ==== Sys2Proof/Machine/Reserved.lean ====
section
/-! DEFINITION. The eleven reserved `op` values (30_encoding.md R73; 60_exceptions.md R185): each raises `IllegalCommand`
and does nothing else; `ne` is not looked at. -/

namespace Sys2Proof.Machine

/-- `op` 0x5 (30_encoding.md R73). -/
def execReserved5 (_ne : Nat) (s : State) : Host.Outcome State Fault Refusal := raiseError .illegalCommand s

/-- `op` 0x6 (30_encoding.md R73). -/
def execReserved6 (_ne : Nat) (s : State) : Host.Outcome State Fault Refusal := raiseError .illegalCommand s

/-- `op` 0x7 (30_encoding.md R73). -/
def execReserved7 (_ne : Nat) (s : State) : Host.Outcome State Fault Refusal := raiseError .illegalCommand s

/-- `op` 0x8 (30_encoding.md R73). -/
def execReserved8 (_ne : Nat) (s : State) : Host.Outcome State Fault Refusal := raiseError .illegalCommand s

/-- `op` 0x9 (30_encoding.md R73). -/
def execReserved9 (_ne : Nat) (s : State) : Host.Outcome State Fault Refusal := raiseError .illegalCommand s

/-- `op` 0xA (30_encoding.md R73). -/
def execReservedA (_ne : Nat) (s : State) : Host.Outcome State Fault Refusal := raiseError .illegalCommand s

/-- `op` 0xB (30_encoding.md R73). -/
def execReservedB (_ne : Nat) (s : State) : Host.Outcome State Fault Refusal := raiseError .illegalCommand s

/-- `op` 0xC (30_encoding.md R73). -/
def execReservedC (_ne : Nat) (s : State) : Host.Outcome State Fault Refusal := raiseError .illegalCommand s

/-- `op` 0xD (30_encoding.md R73). -/
def execReservedD (_ne : Nat) (s : State) : Host.Outcome State Fault Refusal := raiseError .illegalCommand s

/-- `op` 0xE (30_encoding.md R73). -/
def execReservedE (_ne : Nat) (s : State) : Host.Outcome State Fault Refusal := raiseError .illegalCommand s

/-- `op` 0xF (30_encoding.md R73). -/
def execReservedF (_ne : Nat) (s : State) : Host.Outcome State Fault Refusal := raiseError .illegalCommand s

end Sys2Proof.Machine
end

