-- ==== Sys2Proof/Machine/Dispatch.lean ====
section
/-! DEFINITION. What each instruction does: one arm per constructor of Instr, one meaning per arm. -/

namespace Sys2Proof.Machine

def exec (i : Instr) (s : State) : Host.Outcome State Fault Refusal :=
  match i with
  | .downcast ne => Sys2Proof.Machine.execDowncast ne s
  | .downcastMatrix ne => Sys2Proof.Machine.execDowncastMatrix ne s
  | .decode ne => Sys2Proof.Machine.execDecode ne s
  | .approxMultiply ne => Sys2Proof.Machine.execApproxMultiply ne s
  | .approxMatmul ne => Sys2Proof.Machine.execApproxMatmul ne s
  | .reserved5 ne => Sys2Proof.Machine.execReserved5 ne s
  | .reserved6 ne => Sys2Proof.Machine.execReserved6 ne s
  | .reserved7 ne => Sys2Proof.Machine.execReserved7 ne s
  | .reserved8 ne => Sys2Proof.Machine.execReserved8 ne s
  | .reserved9 ne => Sys2Proof.Machine.execReserved9 ne s
  | .reservedA ne => Sys2Proof.Machine.execReservedA ne s
  | .reservedB ne => Sys2Proof.Machine.execReservedB ne s
  | .reservedC ne => Sys2Proof.Machine.execReservedC ne s
  | .reservedD ne => Sys2Proof.Machine.execReservedD ne s
  | .reservedE ne => Sys2Proof.Machine.execReservedE ne s
  | .reservedF ne => Sys2Proof.Machine.execReservedF ne s

end Sys2Proof.Machine
end

