-- ==== Sys2Proof/Machine/HostPort.lean ====
section
/-! DEFINITION. What the outside can do to the core between commands: the host's register and buffer accesses, reset, and
the choice of the next input (10_state.md R12 to R14, R22, R28; 70_reset_and_hazards.md R210, R212). -/

namespace Sys2Proof.Machine

/-- The host keeps a value it read; the core does not change (10_state.md R13: a host read never has a side effect). -/
def receive (v : Nat) (s : State) : State := { s with received := v :: s.received }

/-- A host read of a register (10_state.md R13, U9). -/
def hostReadRegister (reg : Nat) (s : State) : Host.Outcome State Fault Refusal :=
  match readRegister s reg with
  | some v => .next (receive v s)
  | none => .refused (.noSuchRegister reg)

/-- A host write of a register other than `CMD` (10_state.md R13, U9). -/
def hostWriteRegister (reg value : Nat) (s : State) : Host.Outcome State Fault Refusal :=
  match writeRegister s reg value with
  | some t => .next t
  | none => .refused (.noSuchRegister reg)

/-- The element a host read finds, as an unsigned number (10_state.md R22). -/
def readBuffer (s : State) (buf : BufferId) (index : Nat) : Option Nat :=
  match buf with
  | .xf => (s.xf.read index).map BitVec.toNat
  | .yf => (s.yf.read index).map BitVec.toNat
  | .xq => (s.xq.read index).map BitVec.toNat
  | .yq => (s.yq.read index).map BitVec.toNat
  | .zf => (s.zf.read index).map BitVec.toNat

/-- A host read of a buffer element: what was last written there, in or outside the current shape (U10); an unwritten
element is refused (10_state.md R28, U5), an index at or beyond `2 ^ AW` does not exist (U9). -/
def hostReadBuffer (buf : BufferId) (index : Nat) (s : State) : Host.Outcome State Fault Refusal :=
  if index < bufferSize s then
    match readBuffer s buf index with
    | some v => .next (receive v s)
    | none => .refused (.unwrittenHostRead buf index)
  else .refused (.noSuchElement buf index)

/-- A host write of one element of `XF` or `YF` (10_state.md R22; 30_encoding.md R76). The other buffers are not
host-writable and a write to one has no meaning in the spec (log 7). -/
def hostWriteBuffer (buf : BufferId) (index : Nat) (value : Word) (s : State) : Host.Outcome State Fault Refusal :=
  if index < bufferSize s then
    match buf with
    | .xf => .next { s with xf := s.xf.write index value }
    | .yf => .next { s with yf := s.yf.write index value }
    | .xq => .refused (.bufferNotHostWritable .xq)
    | .yq => .refused (.bufferNotHostWritable .yq)
    | .zf => .refused (.bufferNotHostWritable .zf)
  else .refused (.noSuchElement buf index)

/-- Reset (10_state.md R27; 70_reset_and_hazards.md R210): every register 0, every element unwritten. The draw source is
not part of the core and goes on where it was (U13); the parameter and the host's side are not the core's either (log 10). -/
def resetCore (s : State) : State :=
  { State.reset with rnd := s.rnd, params := s.params, inputs := s.inputs, received := s.received }

/-- What the next input asks of the machine. -/
inductive Fetched where
  /-- a host write of `CMD`: the command word, and the state in which the command runs -/
  | command (word : Byte) (s : State)
  /-- any other access is performed at once -/
  | done (o : Host.Outcome State Fault Refusal)

/-- While `BUSY` is 1 the host may read `STATUS` (register 1) and nothing else (70_reset_and_hazards.md R212); a reset is
no host access and ends a command at once (R210), and what the draw source will deliver is no host access either
(30_encoding.md R76). -/
def allowedWhileBusy : Input → Bool
  | .readReg reg => reg = 1
  | .rnd _ => true
  | .reset => true
  | .writeReg _ _ => false
  | .writeBuf _ _ _ => false
  | .readBuf _ _ => false

/-- One input performed on the state that no longer lists it (10_state.md R12, R14). -/
def perform (a : Input) (s : State) : Fetched :=
  match a with
  | .writeReg reg value =>
    if reg = 0 then .command (BitVec.ofNat 8 value) (startCommand (BitVec.ofNat 8 value) s)
    else .done (hostWriteRegister reg value s)
  | .readReg reg => .done (hostReadRegister reg s)
  | .writeBuf buf index value => .done (hostWriteBuffer buf index value s)
  | .readBuf buf index => .done (hostReadBuffer buf index s)
  | .rnd draws => .done (.next (stateDraws draws s))
  | .reset => .done (.next (resetCore s))

/-- The next input, taken off the list. With none pending nothing happens: the core fetches nothing by itself
(10_state.md R11; log 1). -/
def fetch (s : State) : Fetched :=
  match s.inputs with
  | [] => .done (.next s)
  | a :: rest =>
    if statusBusy s.status && !allowedWhileBusy a then .done (.refused .hostAccessWhileBusy)
    else perform a { s with inputs := rest }

end Sys2Proof.Machine
end

