-- ==== Sys2Proof/Machine/Step.lean ====
section
/-! DEFINITION. One step of the machine (10_state.md R12): the next input is performed, a command word to its end. -/

namespace Sys2Proof.Machine

/-- One step: a write of `CMD` runs the whole command atomically (10_state.md R12, R14); any other input is one access. -/
def step (s : State) : Host.Outcome State Fault Refusal :=
  match fetch s with
  | .command c t => exec (decodeWord c) t
  | .done o => o

/-- `s` about to receive the command word `w`: the host's next access is the write of its byte to `CMD` (register 0), and no
command is running (log 1). -/
def State.withFetchWord (s : State) (nbits w : Nat) : State :=
  { s with
    inputs := .writeReg 0 (w % 2 ^ nbits) :: s.inputs
    status := statusWord 0#1 (statusErr s.status) }

end Sys2Proof.Machine
end

