-- ==== Sys2Proof/Machine/Script.lean ====
section
/-! DEFINITION. The written forms of commands (30_encoding.md R75) and of the host's programs (R76): what each line of a
program asks of the host and of the draw port. The step does not use them; they say how a written program is placed. -/

namespace Sys2Proof.Machine

/-- The mnemonic of a row (30_encoding.md R71); a reserved row has none (R75). -/
def mnemonic : Instr → Option String
  | .downcast _ => some "DOWNCAST"
  | .downcastMatrix _ => some "DOWNCAST_MATRIX"
  | .decode _ => some "DECODE"
  | .approxMultiply _ => some "APPROX_MULTIPLY"
  | .approxMatmul _ => some "APPROX_MATMUL"
  | .reserved5 _ => none
  | .reserved6 _ => none
  | .reserved7 _ => none
  | .reserved8 _ => none
  | .reserved9 _ => none
  | .reservedA _ => none
  | .reservedB _ => none
  | .reservedC _ => none
  | .reservedD _ => none
  | .reservedE _ => none
  | .reservedF _ => none

/-- The `op` value of a name: the mnemonic or one of the document's own names (30_encoding.md R75). -/
def opNamed (name : String) : Option Nat :=
  if name = "DOWNCAST" ∨ name = "downcast" then some 0x0
  else if name = "DOWNCAST_MATRIX" ∨ name = "downcast_matrix" ∨ name = "downcastMatrix" then some 0x1
  else if name = "DECODE" ∨ name = "decode" then some 0x2
  else if name = "APPROX_MULTIPLY" ∨ name = "approx_multiply" ∨ name = "approxMultiply" then some 0x3
  else if name = "APPROX_MATMUL" ∨ name = "approx_matmul" ∨ name = "approxMatmul" then some 0x4
  else none

/-- The byte `<name> ne=<ne>` assembles to, `(ne << 4) | op`, for `ne` of 0 to 15 (30_encoding.md R75). -/
def assemble (name : String) (ne : Nat) : Option Byte :=
  if ne < 16 then (opNamed name).map (fun op => BitVec.ofNat 8 ((ne <<< 4) ||| op)) else none

/-- One hexadecimal digit. -/
def hexDigit (n : Nat) : Char := "0123456789ABCDEF".toList.getD n '?'

/-- How a command word is written (30_encoding.md R75): its mnemonic and `ne`, or `.cmd 0x<hh>` for a reserved word. -/
def commandText (c : Byte) : String :=
  match mnemonic (decodeWord c) with
  | some name => name ++ " ne=" ++ toString (neField c)
  | none => ".cmd 0x" ++ String.ofList [hexDigit (neField c), hexDigit (opField c)]

/-- The registers by name, in the order of their numbers (10_state.md R13). -/
inductive RegName where
  | CMD | STATUS | OPA | OPB | RES | DSIGN | DEXP | DFRAC | DSIG | XROWS | XCOLS | YROWS | YCOLS | ZROWS | ZCOLS
  deriving DecidableEq, Repr

/-- The number of a register (10_state.md R13). -/
def RegName.number : RegName → Nat
  | .CMD => 0
  | .STATUS => 1
  | .OPA => 2
  | .OPB => 3
  | .RES => 4
  | .DSIGN => 5
  | .DEXP => 6
  | .DFRAC => 7
  | .DSIG => 8
  | .XROWS => 9
  | .XCOLS => 10
  | .YROWS => 11
  | .YCOLS => 12
  | .ZROWS => 13
  | .ZCOLS => 14

/-- One line of a host program (30_encoding.md R76), the pseudo-instructions included; a read may state the value it
expects. -/
inductive ScriptLine where
  | wr (reg : RegName) (value : Nat)
  | wrBuf (buf : BufferId) (index : Nat) (value : Word)
  | rd (reg : RegName) (expected : Option Nat)
  | rdBuf (buf : BufferId) (index : Nat) (expected : Option Nat)
  | command (word : Byte)
  | rnd (draws : List Word)
  | ldx (r c : Nat) (values : List Word)
  | ldy (r c : Nat) (values : List Word)
  | expectErr (e : ErrKind)
  deriving DecidableEq, Repr

/-- Whether the line has a form of 30_encoding.md R76: a buffer write is of `XF` or `YF`, and `LDX` and `LDY` have exactly
`r * c` values. -/
def ScriptLine.wellFormed : ScriptLine → Bool
  | .wr _ _ => true
  | .wrBuf buf _ _ => buf = .xf || buf = .yf
  | .rd _ _ => true
  | .rdBuf _ _ _ => true
  | .command _ => true
  | .rnd _ => true
  | .ldx r c values => values.length = r * c
  | .ldy r c values => values.length = r * c
  | .expectErr _ => true

/-- The writes of a row-major list of elements from index `k` on (30_encoding.md R76). -/
def loadElements (buf : BufferId) (k : Nat) : List Word → List Input
  | [] => []
  | v :: rest => .writeBuf buf k v :: loadElements buf (k + 1) rest

/-- The host accesses of a line (30_encoding.md R76); `RND` is none. -/
def ScriptLine.accesses : ScriptLine → List Input
  | .wr reg value => [.writeReg reg.number value]
  | .wrBuf buf index value => [.writeBuf buf index value]
  | .rd reg _ => [.readReg reg.number]
  | .rdBuf buf index _ => [.readBuf buf index]
  | .command word => [.writeReg 0 word.toNat]
  | .rnd _ => []
  | .ldx r c values => .writeReg 9 r :: .writeReg 10 c :: loadElements .xf 0 values
  | .ldy r c values => .writeReg 11 r :: .writeReg 12 c :: loadElements .yf 0 values
  | .expectErr _ => [.readReg 1]

/-- The values a line says the draw port will deliver to the following command (30_encoding.md R76). -/
def ScriptLine.draws : ScriptLine → List Word
  | .rnd draws => draws
  | .wr _ _ => []
  | .wrBuf _ _ _ => []
  | .rd _ _ => []
  | .rdBuf _ _ _ => []
  | .command _ => []
  | .ldx _ _ _ => []
  | .ldy _ _ _ => []
  | .expectErr _ => []

/-- Whether the line is a command: a mnemonic, or a write of `CMD`, which is the same (30_encoding.md R76). -/
def ScriptLine.isCommand : ScriptLine → Bool
  | .command _ => true
  | .wr reg _ => reg = .CMD
  | .wrBuf _ _ _ => false
  | .rd _ _ => false
  | .rdBuf _ _ _ => false
  | .rnd _ => false
  | .ldx _ _ _ => false
  | .ldy _ _ _ => false
  | .expectErr _ => false

/-- The inputs a program stands for, `stated` being the values its `RND` lines have stated since the last command
(30_encoding.md R76). They reach the port right before the command they are stated for, so that no earlier command and no
later one takes them; a command for which none are stated takes free draws (log 18). -/
def scriptInputs (stated : List Word) : List ScriptLine → List Input
  | [] => []
  | line :: rest =>
    if line.isCommand then .rnd stated :: (line.accesses ++ scriptInputs [] rest)
    else line.accesses ++ scriptInputs (stated ++ line.draws) rest

/-- The value `EXPECT ERR=<name>` expects to read from `STATUS`: the code of the name with `BUSY` = 0 (30_encoding.md R76). -/
def expectedStatus (e : ErrKind) : Byte := statusWord 0#1 (errCode e)

/-- What each read of a line states as the value expected (30_encoding.md R76). -/
def ScriptLine.expectations : ScriptLine → List (Option Nat)
  | .rd _ expected => [expected]
  | .rdBuf _ _ expected => [expected]
  | .expectErr e => [some (expectedStatus e).toNat]
  | .wr _ _ => []
  | .wrBuf _ _ _ => []
  | .command _ => []
  | .rnd _ => []
  | .ldx _ _ _ => []
  | .ldy _ _ _ => []

/-- Whether the values a program's reads returned, oldest first, are those its lines state (30_encoding.md R76). -/
def meetsExpectations : List (Option Nat) → List Nat → Bool
  | [], [] => true
  | e :: es, v :: vs => (e = none || e = some v) && meetsExpectations es vs
  | [], _ :: _ => false
  | _ :: _, [] => false

/-- A state whose host is about to run a program: what the program stands for follows the inputs already pending
(30_encoding.md R76; log 1). -/
def State.withScript (s : State) (program : List ScriptLine) : State :=
  { s with inputs := s.inputs ++ scriptInputs [] program }

end Sys2Proof.Machine
end

