-- ==== Sys2Proof/Safety.lean ====
section
/-! DEFINITION. The terms claims are stated in: the real values that patterns and bytes denote, the invariant of the
machine, and the sizes of a command's reads. Nothing here is used by the step. -/

namespace Sys2Proof.Machine

/-! ### Values as rationals -/

/-- `val32(v)` of a finite pattern (30_encoding.md R60; for exponent field 0, R61). -/
def val32 (v : Word) : ℚ :=
  (-1) ^ (fp32Sign v).toNat *
    (if fp32Exp v = 0 then (2 : ℚ) ^ (-126 : ℤ) * (fp32Man v / 2 ^ 23)
     else (2 : ℚ) ^ ((fp32Exp v : ℤ) - 127) * (1 + fp32Man v / 2 ^ 23))

/-- `f` of a decoded byte as a rational (41_lmul.md R131). -/
def fracVal (b : Byte) (ne : Nat) : ℚ := (decodeFp8 b ne).frac / 2 ^ manWidth ne

/-- `M` of a decoded byte as a rational (41_lmul.md R131). -/
def sigVal (b : Byte) (ne : Nat) : ℚ := (decodeFp8 b ne).sig / 2 ^ manWidth ne

/-- `recon(b, ne)` (41_lmul.md R136). -/
def recon (b : Byte) (ne : Nat) : ℚ :=
  (-1) ^ (decodeFp8 b ne).sign.toNat * sigVal b ne * (2 : ℚ) ^ (decodeFp8 b ne).exp

/-- The pattern is `+0.0` or a normal number (42_matmul.md R166). -/
def NormalOrZero (v : Word) : Prop := v = 0x00000000#32 ∨ (1 ≤ fp32Exp v ∧ fp32Exp v ≤ 254)

/-! ### The matrix product as the rules write it -/

/-- `fadd32( ... fadd32( fadd32(+0.0, p 0), p 1 ) ..., p (k-1) )` (42_matmul.md R163). -/
def sumAscending (p : Nat → Word) : Nat → Word
  | 0 => 0x00000000#32
  | k + 1 => fadd32 (sumAscending p k) (p k)

/-- The elements `0 .. n-1` of a buffer are all written (10_state.md R28; 70_reset_and_hazards.md R211). -/
def WrittenUpTo {w : Nat} (b : Buffer w) (n : Nat) : Prop := ∀ k < n, ∃ v, b.read k = some v

/-- Everything the command reads from `XF` and `YF` is written (10_state.md R26; 70_reset_and_hazards.md R211). -/
def InputsWritten (i : Instr) (s : State) : Prop :=
  match i with
  | .downcastMatrix _ => WrittenUpTo s.xf (s.xrows * s.xcols)
  | .approxMatmul _ => WrittenUpTo s.xf (s.xrows * s.xcols) ∧ WrittenUpTo s.yf (s.yrows * s.ycols)
  | _ => True

/-- How many draws a successful command takes (10_state.md R26). -/
def drawsTaken (i : Instr) (s : State) : Nat :=
  match i with
  | .downcast _ => 1
  | .downcastMatrix _ => s.xrows * s.xcols
  | .approxMatmul _ => s.xrows * s.xcols + s.yrows * s.ycols
  | _ => 0

/-- Whether the rows and columns make an empty matrix (60_exceptions.md R183). -/
abbrev ShapeEmpty (rows cols : Nat) : Prop := rows = 0 ∨ cols = 0

/-- The first error that holds, in the order of 60_exceptions.md R187, as its code in `STATUS.ERR` (R180); none when the
command runs. -/
def firstError (i : Instr) (s : State) : Option (BitVec 3) :=
  match i with
  | .downcast ne => if 1 ≤ ne ∧ ne ≤ 6 then none else some 1
  | .decode ne => if 1 ≤ ne ∧ ne ≤ 6 then none else some 1
  | .approxMultiply ne => if 1 ≤ ne ∧ ne ≤ 6 then none else some 1
  | .downcastMatrix ne =>
    if ShapeEmpty s.xrows s.xcols then some 2
    else if 1 ≤ ne ∧ ne ≤ 6 then none else some 1
  | .approxMatmul ne =>
    if ShapeEmpty s.xrows s.xcols then some 2
    else if ¬(1 ≤ ne ∧ ne ≤ 6) then some 1
    else if ShapeEmpty s.yrows s.ycols then some 2
    else if s.xcols ≠ s.yrows then some 3 else none
  | _ => some 4

/-! ### The invariant -/

/-- Every dimension register holds a `DIMW`-bit value and `DIMW >= 1` (10_state.md R13, R20, R21; 00_scope.md R7). -/
def DimsFit (s : State) : Prop :=
  1 ≤ s.params.dimw ∧ s.xrows < 2 ^ s.params.dimw ∧ s.xcols < 2 ^ s.params.dimw ∧ s.yrows < 2 ^ s.params.dimw ∧
    s.ycols < 2 ^ s.params.dimw ∧ s.zrows < 2 ^ s.params.dimw ∧ s.zcols < 2 ^ s.params.dimw

/-- No buffer holds an element at or beyond `2 ^ AW` (10_state.md R22; 20_memory.md R42). -/
def BuffersWithin (s : State) : Prop :=
  s.xf.within (bufferSize s) ∧ s.yf.within (bufferSize s) ∧ s.xq.within (bufferSize s) ∧
    s.yq.within (bufferSize s) ∧ s.zf.within (bufferSize s)

/-- `BUSY` is 0, `STATUS[6:3]` read as 0 and `ERR` is 0 to 4 (10_state.md R15). -/
def StatusLegal (s : State) : Prop := s.status.toNat ≤ 4

/-- The decode registers hold a tuple `DECODE` can produce (10_state.md R19; 41_lmul.md R134): `M` is 0, and then `E` is 0,
or `M = 1 + f`; `E` is between -30 and 32. -/
def DecodeRegsLegal (s : State) : Prop :=
  ((s.dsig.toNat = 0 ∧ s.dexp = 0#8) ∨ s.dsig.toNat = 64 + s.dfrac.toNat) ∧ -30 ≤ s.dexp.toInt ∧ s.dexp.toInt ≤ 32

/-- Every element of `ZF` is `+0.0` or a normal number (42_matmul.md R166), an invariant of its own. -/
def ResultsNormal (s : State) : Prop := ∀ e ∈ s.zf, NormalOrZero e.2

/-- The machine's invariant: registers in their ranges, buffers in canonical form and inside their sizes. -/
structure State.Inv (s : State) : Prop where
  dims : DimsFit s
  canonical : Memory.wf s
  within : BuffersWithin s
  status : StatusLegal s
  decodeRegs : DecodeRegsLegal s

end Sys2Proof.Machine
end

