-- ==== Sys2Proof/Certificates/Slice0/Obligations.lean ====
section
/-! DEFINITION. The statements for the provers. Each docstring names the rule of spec/ the statement comes from. A statement
about a step has the premise that `BUSY` is 0, which `StepKeepsTheInvariant` keeps in every run. -/

open Sys2Proof Sys2Proof.Machine

/-! ### Encoding and the step -/

/-- 30_encoding.md R70, R71, R73: decoding the encoding of a command word's term gives the term and leaves the rest. -/
def Obligations.DecodeInvertsEncode : Prop :=
  ∀ (i : Instr) (rest : List Byte), i.WellFormed → decode (encode i ++ rest) = .ok (i, rest)

/-- 30_encoding.md R70, R71, R73: each of the 256 words decodes, to a well-formed term that encodes back to it, with
`ne` = bits 7:4 and the row that `op` = bits 3:0 selects; the reserved rows are exactly `op` 0x5 to 0xF. -/
def Obligations.EveryWordEncodesItsDecoding : Prop :=
  ∀ (c : Byte) (rest : List Byte), ∃ i : Instr,
    decode (c :: rest) = .ok (i, rest) ∧ i.WellFormed ∧ encode i = [c] ∧ i.ne = c.toNat / 16 ∧
      opOf i = c.toNat % 16 ∧ (i.isReserved = true ↔ 5 ≤ c.toNat % 16)

/-- 30_encoding.md R71, R75 and 95_test_vectors.md: words written out bit by bit. -/
def Obligations.WrittenOutWordsDecode : Prop :=
  decode [0b01000000#8] = .ok (.downcast 4, []) ∧ decode [0b01000001#8] = .ok (.downcastMatrix 4, []) ∧
    decode [0b01110010#8] = .ok (.decode 7, []) ∧ decode [0b10010011#8] = .ok (.approxMultiply 9, []) ∧
    decode [0b01000100#8] = .ok (.approxMatmul 4, []) ∧ decode [0b00111010#8] = .ok (.reservedA 3, []) ∧
    decode [0b11111111#8] = .ok (.reservedF 15, [])

/-- 30_encoding.md R75, R71: each mnemonic and each of the document's names assembles with `ne` 0 to 15 to
`(ne << 4) | op`; and the mnemonic and the `ne` of a command word that has a mnemonic assemble back to it. -/
def Obligations.WrittenCommandsAssemble : Prop :=
  (∀ ne < 16,
    (∀ n ∈ ["DOWNCAST", "downcast"], assemble n ne = some (BitVec.ofNat 8 (ne * 16 + 0))) ∧
    (∀ n ∈ ["DOWNCAST_MATRIX", "downcast_matrix", "downcastMatrix"],
      assemble n ne = some (BitVec.ofNat 8 (ne * 16 + 1))) ∧
    (∀ n ∈ ["DECODE", "decode"], assemble n ne = some (BitVec.ofNat 8 (ne * 16 + 2))) ∧
    (∀ n ∈ ["APPROX_MULTIPLY", "approx_multiply", "approxMultiply"],
      assemble n ne = some (BitVec.ofNat 8 (ne * 16 + 3))) ∧
    (∀ n ∈ ["APPROX_MATMUL", "approx_matmul", "approxMatmul"], assemble n ne = some (BitVec.ofNat 8 (ne * 16 + 4)))) ∧
  (∀ (c : Byte) (n : String), mnemonic (decodeWord c) = some n → assemble n (neField c) = some c)

/-- 10_state.md R12, R14, R15: a write of `CMD` stores the word, sets `BUSY` and runs the instruction it decodes to, in one
step. That the write is the next of the listed inputs is the model's form of the host (log 1). -/
def Obligations.StepRunsTheCommandWord : Prop :=
  ∀ (s : State) (w : Nat) (rest : List Input) (i : Instr),
    s.inputs = .writeReg 0 w :: rest → statusBusy s.status = false → decode [BitVec.ofNat 8 w] = .ok (i, []) →
    step s = exec i { s with cmd := BitVec.ofNat 8 w, status := statusWord 1#1 (statusErr s.status), inputs := rest }

/-- 30_encoding.md R73, 60_exceptions.md R185: a reserved word does nothing but set `STATUS.ERR` to 4 (and `CMD` holds the
word); they are 176 of the 256 words. -/
def Obligations.ReservedWordOnlySetsErr : Prop :=
  ((List.range 256).filter (fun c => 5 ≤ c % 16)).length = 176 ∧
    ∀ (s : State) (w : Nat) (rest : List Input),
      s.inputs = .writeReg 0 w :: rest → statusBusy s.status = false → 5 ≤ w % 16 →
      step s = .next { s with cmd := BitVec.ofNat 8 w, status := 0x04#8, inputs := rest }

/-- 30_encoding.md R73, 60_exceptions.md R190: the completion of the eleven reserved rows (`reserved5` to `reserved9`,
`reservedA` to `reservedF`), whose own effect is to raise `IllegalCommand`. -/
def Obligations.ReservedRowsRaiseIllegalCommand : Prop :=
  ∀ (i : Instr) (s : State), i.isReserved = true → exec i s = .next { s with status := 0x04#8 }

/-! ### The host's accesses -/

/-- 10_state.md R13: a read of register 0 to 14 returns the register of that number, and changes nothing of the core. -/
def Obligations.HostReadsRegister : Prop :=
  ∀ (s : State) (rest : List Input) (reg v : Nat),
    s.inputs = .readReg reg :: rest → statusBusy s.status = false →
    [s.cmd.toNat, s.status.toNat, s.opa.toNat, s.opb.toNat, s.res.toNat, s.dsign.toNat, s.dexp.toNat, s.dfrac.toNat,
      s.dsig.toNat, s.xrows, s.xcols, s.yrows, s.ycols, s.zrows, s.zcols][reg]? = some v →
    step s = .next { s with inputs := rest, received := v :: s.received }

/-- 10_state.md R13: a write of register 1 to 14 keeps the value's low bits in a host-writable register, is ignored by a
read-only one, and changes no other register. -/
def Obligations.HostWritesRegister : Prop :=
  ∀ (s : State) (rest : List Input) (reg value : Nat),
    s.inputs = .writeReg reg value :: rest → statusBusy s.status = false → 1 ≤ reg → reg ≤ 14 →
    step s = .next { s with
      inputs := rest
      opa := if reg = 2 then BitVec.ofNat 32 value else s.opa
      opb := if reg = 3 then BitVec.ofNat 8 value else s.opb
      xrows := if reg = 9 then value % 2 ^ s.params.dimw else s.xrows
      xcols := if reg = 10 then value % 2 ^ s.params.dimw else s.xcols
      yrows := if reg = 11 then value % 2 ^ s.params.dimw else s.yrows
      ycols := if reg = 12 then value % 2 ^ s.params.dimw else s.ycols }

/-- 10_state.md R22, 20_memory.md R44: a host write of an element of `XF` or `YF` changes that element and nothing else. -/
def Obligations.HostWritesElement : Prop :=
  ∀ (s : State) (rest : List Input) (index : Nat) (value : Word),
    statusBusy s.status = false → index < 2 ^ (2 * s.params.dimw) →
    (s.inputs = .writeBuf .xf index value :: rest →
      ∃ t, step s = .next t ∧ t.xf.read index = some value ∧ (∀ j, j ≠ index → t.xf.read j = s.xf.read j) ∧
        t = { s with inputs := rest, xf := t.xf }) ∧
    (s.inputs = .writeBuf .yf index value :: rest →
      ∃ t, step s = .next t ∧ t.yf.read index = some value ∧ (∀ j, j ≠ index → t.yf.read j = s.yf.read j) ∧
        t = { s with inputs := rest, yf := t.yf })

/-- 10_state.md R22, 93_implementation_defined.md U10: a host read of a written element returns it, whatever the shapes,
and changes nothing of the core. -/
def Obligations.HostReadsElement : Prop :=
  ∀ (s : State) (rest : List Input) (index : Nat) (v : Word) (b : Byte),
    statusBusy s.status = false → index < 2 ^ (2 * s.params.dimw) →
    (s.inputs = .readBuf .xf index :: rest → s.xf.read index = some v →
      step s = .next { s with inputs := rest, received := v.toNat :: s.received }) ∧
    (s.inputs = .readBuf .yf index :: rest → s.yf.read index = some v →
      step s = .next { s with inputs := rest, received := v.toNat :: s.received }) ∧
    (s.inputs = .readBuf .xq index :: rest → s.xq.read index = some b →
      step s = .next { s with inputs := rest, received := b.toNat :: s.received }) ∧
    (s.inputs = .readBuf .yq index :: rest → s.yq.read index = some b →
      step s = .next { s with inputs := rest, received := b.toNat :: s.received }) ∧
    (s.inputs = .readBuf .zf index :: rest → s.zf.read index = some v →
      step s = .next { s with inputs := rest, received := v.toNat :: s.received })

/-- 10_state.md R28 and 93_implementation_defined.md U5, U9: what the spec gives no meaning is refused by name: register
numbers of 15 and above, indices at and beyond `2 ^ AW`, and host reads of unwritten elements. That a host write of `XQ`,
`YQ` or `ZF`, which R22 makes host-readable only, is refused too is the model's choice (log 7). -/
def Obligations.HostAccessesWithoutMeaningAreRefused : Prop :=
  ∀ (s : State) (rest : List Input), statusBusy s.status = false →
    (∀ reg value, 15 ≤ reg → s.inputs = .writeReg reg value :: rest → step s = .refused (.noSuchRegister reg)) ∧
    (∀ reg, 15 ≤ reg → s.inputs = .readReg reg :: rest → step s = .refused (.noSuchRegister reg)) ∧
    (∀ buf index value, 2 ^ (2 * s.params.dimw) ≤ index → s.inputs = .writeBuf buf index value :: rest →
      step s = .refused (.noSuchElement buf index)) ∧
    (∀ buf index, 2 ^ (2 * s.params.dimw) ≤ index → s.inputs = .readBuf buf index :: rest →
      step s = .refused (.noSuchElement buf index)) ∧
    (∀ buf index, index < 2 ^ (2 * s.params.dimw) → readBuffer s buf index = none → s.inputs = .readBuf buf index :: rest →
      step s = .refused (.unwrittenHostRead buf index)) ∧
    (∀ buf index value, index < 2 ^ (2 * s.params.dimw) → buf = .xq ∨ buf = .yq ∨ buf = .zf →
      s.inputs = .writeBuf buf index value :: rest → step s = .refused (.bufferNotHostWritable buf))

/-- 70_reset_and_hazards.md R212, 93_implementation_defined.md U8: while `BUSY` is 1 the host may read `STATUS`; any other
access of the host is refused. (A state with `BUSY` 1 is one no run reaches; log 5.) -/
def Obligations.OnlyStatusMayBeReadWhileBusy : Prop :=
  ∀ (s : State) (rest : List Input), statusBusy s.status = true →
    (s.inputs = .readReg 1 :: rest →
      step s = .next { s with inputs := rest, received := s.status.toNat :: s.received }) ∧
    ∀ a, a ≠ .readReg 1 → a ≠ .reset → (∀ ds, a ≠ .rnd ds) → s.inputs = a :: rest →
      step s = .refused .hostAccessWhileBusy

/-! ### Reset -/

/-- 10_state.md R27: after reset every register is 0, every buffer element is unwritten and no draw has been taken. -/
def Obligations.ResetLeavesTheStatedState : Prop :=
  (State.reset.cmd = 0 ∧ State.reset.status = 0 ∧ State.reset.opa = 0 ∧ State.reset.opb = 0 ∧ State.reset.res = 0 ∧
    State.reset.dsign = 0 ∧ State.reset.dexp = 0 ∧ State.reset.dfrac = 0 ∧ State.reset.dsig = 0 ∧
    State.reset.xrows = 0 ∧ State.reset.xcols = 0 ∧ State.reset.yrows = 0 ∧ State.reset.ycols = 0 ∧
    State.reset.zrows = 0 ∧ State.reset.zcols = 0) ∧
  (∀ i, State.reset.xf.read i = none ∧ State.reset.yf.read i = none ∧ State.reset.xq.read i = none ∧
    State.reset.yq.read i = none ∧ State.reset.zf.read i = none) ∧
  State.reset.rnd.taken = 0

/-- 70_reset_and_hazards.md R210, 93_implementation_defined.md U13: a reset in any state, also with `BUSY` 1, puts the core
in the reset state; the draw source, the parameter and the host's side are not the core's and go on (log 10). -/
def Obligations.ResetInputResetsTheCore : Prop :=
  ∀ (s : State) (rest : List Input), s.inputs = .reset :: rest →
    step s = .next { State.reset with rnd := s.rnd, params := s.params, inputs := rest, received := s.received }

/-! ### Invariants -/

/-- 10_state.md R27: the reset state meets the invariant. -/
def Obligations.ResetMeetsTheInvariant : Prop := State.reset.Inv ∧ ResultsNormal State.reset

/-- 10_state.md R13, R15, R19, R22, 20_memory.md R42: every step from a state that meets the invariant leads to one that
does: the dimension registers fit `DIMW` bits, the buffers keep their canonical form and their sizes, `BUSY` is 0, the
reserved status bits are 0, `ERR` is at most 4, and the decode registers hold a tuple of R134's ranges. -/
def Obligations.StepKeepsTheInvariant : Prop :=
  ∀ s t : State, s.Inv → step s = .next t → t.Inv

/-- 42_matmul.md R166: every step keeps `ZF` free of subnormals, infinities, NaNs and `-0.0`. -/
def Obligations.StepKeepsResultsNormal : Prop :=
  ∀ s t : State, ResultsNormal s → step s = .next t → ResultsNormal t

/-! ### Errors and the status -/

/-- 60_exceptions.md R187, R190: a command that meets an error reports the first of the rule's order, and nothing else
changes. -/
def Obligations.FirstErrorIsReportedAlone : Prop :=
  ∀ (i : Instr) (s : State) (e : BitVec 3), firstError i s = some e →
    exec i s = .next { s with status := statusWord 0#1 e }

/-- 10_state.md R15, 60_exceptions.md R191: a command that meets no error and answers a next state leaves `STATUS` 0: not
busy, `OK`; an earlier code does not stick (R192). -/
def Obligations.SuccessClearsStatus : Prop :=
  ∀ (i : Instr) (s t : State), firstError i s = none → exec i s = .next t → t.status = 0x00#8

/-- 60_exceptions.md R186, R191, 10_state.md R28: with its inputs written every command, on any data, ends in a next state. -/
def Obligations.CommandsOnWrittenInputsEnd : Prop :=
  ∀ (i : Instr) (s : State), InputsWritten i s → ∃ t, exec i s = .next t

/-- 10_state.md R13, R16, R17, R20, R22, 00_scope.md R7: no command writes `CMD`, `OPA`, `OPB`, the dimensions of X and Y,
`XF` or `YF`; nor the parameter or the host's side. -/
def Obligations.CommandsLeaveTheirOperands : Prop :=
  ∀ (i : Instr) (s t : State), exec i s = .next t →
    t.cmd = s.cmd ∧ t.opa = s.opa ∧ t.opb = s.opb ∧ t.xrows = s.xrows ∧ t.xcols = s.xcols ∧ t.yrows = s.yrows ∧
      t.ycols = s.ycols ∧ t.xf = s.xf ∧ t.yf = s.yf ∧ t.params = s.params ∧ t.inputs = s.inputs ∧ t.received = s.received

/-- 10_state.md R18: `RES` after a successful `DOWNCAST` is the byte zero-extended, after a successful `APPROX_MULTIPLY` the
product's pattern; no other command and no failed command changes it. -/
def Obligations.ResIsWrittenByItsTwoCommandsOnly : Prop :=
  ∀ (i : Instr) (s t : State), exec i s = .next t →
    (∀ ne, i = .downcast ne → t.status = 0x00#8 → t.res = (0#24 ++ downcast s.opa ne (drawValue s.rnd 0) : BitVec 32)) ∧
    (∀ ne, i = .approxMultiply ne → t.status = 0x00#8 → t.res = approxMultiply (s.opa.extractLsb' 0 8) s.opb ne) ∧
    (t.status ≠ 0x00#8 → t.res = s.res) ∧
    ((∀ ne, i ≠ .downcast ne) → (∀ ne, i ≠ .approxMultiply ne) → t.res = s.res)

/-- 10_state.md R19: only a successful `DECODE` writes the decode registers, among the commands and among the steps, a reset
(R27) excepted. -/
def Obligations.DecodeRegsAreWrittenByDecodeOnly : Prop :=
  (∀ (i : Instr) (s t : State), exec i s = .next t →
    (t.dsign ≠ s.dsign ∨ t.dexp ≠ s.dexp ∨ t.dfrac ≠ s.dfrac ∨ t.dsig ≠ s.dsig) →
    (∃ ne, i = .decode ne) ∧ t.status = 0x00#8) ∧
  (∀ s t : State, step s = .next t →
    (t.dsign ≠ s.dsign ∨ t.dexp ≠ s.dexp ∨ t.dfrac ≠ s.dfrac ∨ t.dsig ≠ s.dsig) →
    (∃ rest, s.inputs = .reset :: rest) ∨
      (t.status = 0x00#8 ∧ ∃ w rest, s.inputs = .writeReg 0 w :: rest ∧ w % 16 = 2))

/-- 10_state.md R21: a successful `APPROX_MATMUL` writes `ZROWS <- XROWS`, `ZCOLS <- YCOLS`; a step that
changes either is such a command's or performs a reset (R27). -/
def Obligations.ResultShapeIsWrittenByMatmulOnly : Prop :=
  (∀ (ne : Nat) (s t : State), exec (.approxMatmul ne) s = .next t → t.status = 0x00#8 →
    t.zrows = s.xrows ∧ t.zcols = s.ycols) ∧
  (∀ s t : State, step s = .next t → (t.zrows ≠ s.zrows ∨ t.zcols ≠ s.zcols) →
    (∃ rest, s.inputs = .reset :: rest) ∨
      (t.status = 0x00#8 ∧ ∃ w rest, s.inputs = .writeReg 0 w :: rest ∧ w % 16 = 4))

/-- 10_state.md R22, R26: `XQ` is written by `DOWNCAST_MATRIX` and `APPROX_MATMUL` only, `YQ` and `ZF` by `APPROX_MATMUL`
only, and by none of them on an error; no other step changes them, a reset (R27) excepted. -/
def Obligations.QuantizedBuffersAreWrittenByMatrixCommandsOnly : Prop :=
  (∀ (i : Instr) (s t : State), exec i s = .next t →
    (t.xq ≠ s.xq → t.status = 0x00#8 ∧ ∃ ne, i = .downcastMatrix ne ∨ i = .approxMatmul ne) ∧
    (t.yq ≠ s.yq ∨ t.zf ≠ s.zf → t.status = 0x00#8 ∧ ∃ ne, i = .approxMatmul ne)) ∧
  (∀ s t : State, step s = .next t → (¬∃ rest, s.inputs = .reset :: rest) →
    (t.xq ≠ s.xq → t.status = 0x00#8 ∧ ∃ w rest, s.inputs = .writeReg 0 w :: rest ∧ (w % 16 = 1 ∨ w % 16 = 4)) ∧
    (t.yq ≠ s.yq ∨ t.zf ≠ s.zf → t.status = 0x00#8 ∧ ∃ w rest, s.inputs = .writeReg 0 w :: rest ∧ w % 16 = 4))

/-- 10_state.md R26, 60_exceptions.md R190: a successful command consumes its number of draws, a failed one none. How the
port is held in State is the model's choice (log 2). -/
def Obligations.CommandsTakeTheirDraws : Prop :=
  ∀ (i : Instr) (s t : State), exec i s = .next t →
    t.rnd = if t.status = 0x00#8
      then { queue := s.rnd.queue.drop (drawsTaken i s), taken := s.rnd.taken + drawsTaken i s } else s.rnd

/-- 70_reset_and_hazards.md R213, 40_quantizer.md R122: replaying the same values on the draws a command takes gives the
same outcome in everything but the port itself. -/
def Obligations.ReplayedDrawsReplayTheResult : Prop :=
  ∀ (i : Instr) (s : State) (p : DrawPort), (∀ n < drawsTaken i s, drawValue p n = drawValue s.rnd n) →
    match exec i s with
    | .next t => ∃ q, exec i { s with rnd := p } = .next { t with rnd := q }
    | .fault f => exec i { s with rnd := p } = .fault f
    | .refused r => exec i { s with rnd := p } = .refused r

/-! ### The quantizer -/

/-- 40_quantizer.md R112, R111: the nine steps, with the widths of 30_encoding.md R63, give the byte as a number: the three
parts do not overlap. -/
def Obligations.DowncastIsTheNineSteps : Prop :=
  ∀ (v : Word) (ne : Nat) (d : Word), 1 ≤ ne → ne ≤ 6 →
    let nm : Nat := 7 - ne
    let sh : Nat := 23 - nm
    let ue : Int := (v.toNat / 2 ^ 23 % 256 : Nat) - 127
    let re : Int := ue + (2 ^ (ne - 1) - 1)
    let m23 : Nat := v.toNat % 2 ^ 23
    let et : Nat := if re < 1 then 0 else if re ≥ 2 ^ ne then 2 ^ ne - 1 else re.toNat
    let w : Nat := if re < 1 then (m23 ||| 0x800000) / 2 ^ (1 - ue).toNat else if re ≥ 2 ^ ne then 0x7FFFFF else m23
    let t : Nat := w / 2 ^ sh
    let up : Nat := if d.toNat / 2 ^ (32 - sh) < w % 2 ^ sh ∧ t ≠ 2 ^ nm - 1 then 1 else 0
    (downcast v ne d).toNat = v.toNat / 2 ^ 31 * 2 ^ 7 + et * 2 ^ nm + (t + up) ∧ t + up < 2 ^ nm ∧ et < 2 ^ ne

/-- 40_quantizer.md R106, R107: the clamp changes nothing on any path; after it the exponent field is 0, `re` or `EMAX` by
path, 0 exactly on the subnormal path, and the working mantissa has at most 23 bits. R107, with that bound of the working
mantissa, is the spec's own inference ("derived: from rules R104, R105, R106"). -/
def Obligations.ClampChangesNothing : Prop :=
  ∀ (v : Word) (ne : Nat), 1 ≤ ne → ne ≤ 6 →
    clampExp (quantPath v ne) ne (targetExp v ne) = targetExp v ne ∧
    (quantPath v ne = .subnormal → targetExp v ne = 0) ∧
    (quantPath v ne = .inRange → (targetExp v ne : Int) = rebiasedExp v ne) ∧
    (quantPath v ne = .overflow → targetExp v ne = 2 ^ ne - 1) ∧
    (targetExp v ne = 0 ↔ quantPath v ne = .subnormal) ∧ targetExp v ne ≤ 2 ^ ne - 1 ∧ workMantissa v ne ≤ 0x7FFFFF

/-- 40_quantizer.md R110: the carry of step 8 never fires. -/
def Obligations.CarryNeverFires : Prop :=
  ∀ (v : Word) (ne : Nat) (d : Word) (et : Nat), 1 ≤ ne → ne ≤ 6 →
    roundMantissa ne (workMantissa v ne) d ≤ 2 ^ (7 - ne) - 1 ∧
    carryMantissa ne et (roundMantissa ne (workMantissa v ne) d) = (et, roundMantissa ne (workMantissa v ne) d)

/-- 40_quantizer.md R109: the increment happens exactly when the draw as a real `d / 2^32` is below the discarded fraction
and the mantissa is not at its maximum. -/
def Obligations.RoundsUpBelowTheDiscardedFraction : Prop :=
  ∀ (ne w : Nat) (d : Word), 1 ≤ ne → ne ≤ 6 →
    (roundsUp ne w d = true ↔
      (d.toNat : ℚ) / 2 ^ 32 < (w % 2 ^ (16 + ne) : Nat) / 2 ^ (16 + ne) ∧ w / 2 ^ (16 + ne) ≠ 2 ^ (7 - ne) - 1)

/-- 40_quantizer.md R109, 95_test_vectors.md S4: of the `2^32` draws exactly `rem * 2^(32 - sh)` round up, when the
mantissa is not at its maximum. -/
def Obligations.CountOfDrawsThatRoundUp : Prop :=
  ∀ ne w : Nat, 1 ≤ ne → ne ≤ 6 → w / 2 ^ (16 + ne) ≠ 2 ^ (7 - ne) - 1 →
    ((Finset.range (2 ^ 32)).filter (fun d => roundsUp ne w (BitVec.ofNat 32 d) = true)).card =
      w % 2 ^ (16 + ne) * 2 ^ (16 - ne)

/-- 40_quantizer.md R114 (a), (f): the byte's top bit is the input's sign, and the sign takes no part in the magnitude. -/
def Obligations.DowncastKeepsTheSign : Prop :=
  ∀ (v : Word) (ne : Nat) (d : Word), 1 ≤ ne → ne ≤ 6 →
    (downcast v ne d).getLsbD 7 = v.getLsbD 31 ∧
    downcast (v ^^^ 0x80000000#32) ne d = downcast v ne d ^^^ 0x80#8

/-- 40_quantizer.md R114 (b), (c): the byte's exponent field is 0 exactly on the subnormal path; there the mantissa field is
`t` or `t + 1`, at most 1 for `ne >= 4`; a zero input gives both fields 0. -/
def Obligations.ExponentFieldZeroIsTheSubnormalPath : Prop :=
  ∀ (v : Word) (ne : Nat) (d : Word), 1 ≤ ne → ne ≤ 6 →
    (fp8Exp (downcast v ne d) ne = 0 ↔ quantPath v ne = .subnormal) ∧
    (fp8Man (downcast v ne d) ne = workMantissa v ne / 2 ^ (16 + ne) ∨
      fp8Man (downcast v ne d) ne = workMantissa v ne / 2 ^ (16 + ne) + 1) ∧
    (quantPath v ne = .subnormal → 4 ≤ ne → fp8Man (downcast v ne d) ne ≤ 1) ∧
    (v.toNat % 2 ^ 31 = 0 → fp8Exp (downcast v ne d) ne = 0 ∧ fp8Man (downcast v ne d) ne = 0)

/-- 40_quantizer.md R114 (d), (e), (g): the draw does not matter when nothing is discarded or the mantissa is at its
maximum; it matters only through its top `sh` bits; draw 0 rounds up whenever that is possible, draw 0xFFFFFFFF never. -/
def Obligations.HowTheDrawMatters : Prop :=
  ∀ (v : Word) (ne : Nat) (d d' : Word), 1 ≤ ne → ne ≤ 6 →
    (workMantissa v ne % 2 ^ (16 + ne) = 0 ∨ workMantissa v ne / 2 ^ (16 + ne) = 2 ^ (7 - ne) - 1 →
      downcast v ne d = downcast v ne d') ∧
    (d.toNat / 2 ^ (16 - ne) = d'.toNat / 2 ^ (16 - ne) → downcast v ne d = downcast v ne d') ∧
    (workMantissa v ne % 2 ^ (16 + ne) ≠ 0 → workMantissa v ne / 2 ^ (16 + ne) ≠ 2 ^ (7 - ne) - 1 →
      (downcast v ne 0x00000000#32).toNat = (downcast v ne 0xFFFFFFFF#32).toNat + 1) ∧
    fp8Man (downcast v ne 0xFFFFFFFF#32) ne = workMantissa v ne / 2 ^ (16 + ne)

/-- 40_quantizer.md R113, the spec's own inference from R112: what each class of input gives, the classes whose byte depends
on the draw included. The row "any input with `e8 <= 104`" holds on the subnormal path (under `ne = 6` the exponents 97 to
104 are in range, R103; log 13). -/
def Obligations.DowncastOfEachInputClass : Prop :=
  ∀ (v : Word) (ne : Nat) (d : Word), 1 ≤ ne → ne ≤ 6 →
    (fp32Exp v = 0 → (downcast v ne d).toNat = v.toNat / 2 ^ 31 * 128) ∧
    (quantPath v ne = .subnormal → fp32Exp v ≤ 104 → (downcast v ne d).toNat = v.toNat / 2 ^ 31 * 128) ∧
    (quantPath v ne = .subnormal →
      (downcast v ne d).toNat = v.toNat / 2 ^ 31 * 128 + workMantissa v ne / 2 ^ (16 + ne) ∨
      (downcast v ne d).toNat = v.toNat / 2 ^ 31 * 128 + (workMantissa v ne / 2 ^ (16 + ne) + 1) ∧
        workMantissa v ne % 2 ^ (16 + ne) ≠ 0 ∧ workMantissa v ne / 2 ^ (16 + ne) ≠ 2 ^ (7 - ne) - 1) ∧
    (quantPath v ne = .inRange → fp32Man v % 2 ^ (16 + ne) = 0 →
      ((downcast v ne d).toNat : Int) =
        (v.toNat / 2 ^ 31 * 128 + fp32Man v / 2 ^ (16 + ne) : Nat) + rebiasedExp v ne * 2 ^ (7 - ne)) ∧
    (quantPath v ne = .inRange →
      ((downcast v ne d).toNat : Int) =
        (v.toNat / 2 ^ 31 * 128 + fp32Man v / 2 ^ (16 + ne) : Nat) + rebiasedExp v ne * 2 ^ (7 - ne) ∨
      ((downcast v ne d).toNat : Int) =
        (v.toNat / 2 ^ 31 * 128 + (fp32Man v / 2 ^ (16 + ne) + 1) : Nat) + rebiasedExp v ne * 2 ^ (7 - ne) ∧
          fp32Man v / 2 ^ (16 + ne) ≠ 2 ^ (7 - ne) - 1) ∧
    (quantPath v ne = .overflow → (downcast v ne d).toNat = v.toNat / 2 ^ 31 * 128 + 127) ∧
    (fp32Exp v = 255 → quantPath v ne = .overflow)

/-- 95_test_vectors.md S3, 90_conflicts.md C10: for an in-range input the byte's reconstructed value is within one step
`2^(ue - nm)` of the input. -/
def Obligations.InRangeRoundTripIsWithinOneStep : Prop :=
  ∀ (v : Word) (ne : Nat) (d : Word), 1 ≤ ne → ne ≤ 6 → quantPath v ne = .inRange →
    |recon (downcast v ne d) ne - val32 v| < (2 : ℚ) ^ (unbiasedExp v - (7 - ne : ℤ))

/-- 40_quantizer.md R100, 10_state.md R16, R18, R24: `DOWNCAST` with a valid `ne` completes: `RES` takes the byte of `OPA`
and the next draw, zero-extended; one draw is consumed; nothing else changes. -/
def Obligations.DowncastCompletes : Prop :=
  ∀ (ne : Nat) (s : State), 1 ≤ ne → ne ≤ 6 →
    exec (.downcast ne) s = .next { s with
      res := 0#24 ++ downcast s.opa ne (drawValue s.rnd 0)
      rnd := drawAdvance s.rnd 1
      status := 0x00#8 }

/-- 10_state.md R24, 40_quantizer.md R122, R123: the draws a command takes are the values the port delivers, in order, each
once. How the port is held in State is the model's choice (log 2). -/
def Obligations.DrawsComeFromThePortInOrder : Prop :=
  ∀ (p : DrawPort) (n m : Nat),
    (∀ d, p.queue[n]? = some d → drawValue p n = d) ∧ drawValue (drawAdvance p m) n = drawValue p (m + n) ∧
      (drawAdvance p m).queue = p.queue.drop m

/-- 40_quantizer.md R121, R122, 10_state.md R26: `DOWNCAST_MATRIX` with a non-empty X, a valid `ne` and X written completes:
element `k` of `XQ` is element `k` of `XF` quantized with draw `k`; every other element and everything else is unchanged. -/
def Obligations.DowncastMatrixCompletes : Prop :=
  ∀ (ne : Nat) (s : State) (x : Nat → Word), 1 ≤ ne → ne ≤ 6 → s.xrows ≠ 0 → s.xcols ≠ 0 →
    (∀ k < s.xrows * s.xcols, s.xf.read k = some (x k)) →
    ∃ t, exec (.downcastMatrix ne) s = .next t ∧
      (∀ k < s.xrows * s.xcols, t.xq.read k = some (downcast (x k) ne (drawValue s.rnd k))) ∧
      (∀ k, s.xrows * s.xcols ≤ k → t.xq.read k = s.xq.read k) ∧
      t = { s with xq := t.xq, rnd := drawAdvance s.rnd (s.xrows * s.xcols), status := 0x00#8 }

/-- 10_state.md R28, 93_implementation_defined.md U5: a matrix command that passed its tests and meets an unwritten element
of its read range faults; naming the first one, X before Y, is the model's choice (log 6). -/
def Obligations.UnwrittenInputFaults : Prop :=
  ∀ (ne : Nat) (s : State) (k : Nat),
    (firstError (.downcastMatrix ne) s = none → k < s.xrows * s.xcols → WrittenUpTo s.xf k → s.xf.read k = none →
      exec (.downcastMatrix ne) s = .fault (.unwrittenElement .xf k)) ∧
    (firstError (.approxMatmul ne) s = none → k < s.xrows * s.xcols → WrittenUpTo s.xf k → s.xf.read k = none →
      exec (.approxMatmul ne) s = .fault (.unwrittenElement .xf k)) ∧
    (firstError (.approxMatmul ne) s = none → WrittenUpTo s.xf (s.xrows * s.xcols) → k < s.yrows * s.ycols →
      WrittenUpTo s.yf k → s.yf.read k = none → exec (.approxMatmul ne) s = .fault (.unwrittenElement .yf k))

/-! ### The L-Mul unit -/

/-- 41_lmul.md R130, R131, 10_state.md R19: `DECODE` with a valid `ne` completes: the four registers hold sign, `E` in two's
complement, `f * 64` and `M * 64` of the byte `OPA[7:0]`, with `ef` and `mf` the byte's fields; nothing else changes. -/
def Obligations.DecodeCompletes : Prop :=
  ∀ (ne : Nat) (s : State), 1 ≤ ne → ne ≤ 6 →
    let b : Nat := s.opa.toNat % 256
    let ef : Nat := b / 2 ^ (7 - ne) % 2 ^ ne
    let mf : Nat := b % 2 ^ (7 - ne)
    ∃ t, exec (.decode ne) s = .next t ∧ t.dsign.toNat = b / 128 ∧
      t.dexp.toInt = (if ef = 0 then 0 else (ef : Int) - (2 ^ (ne - 1) - 1)) ∧
      t.dfrac.toNat = mf * 2 ^ (ne - 1) ∧
      t.dsig.toNat = (if ef = 0 then 0 else 64 + mf * 2 ^ (ne - 1)) ∧
      t = { s with dsign := t.dsign, dexp := t.dexp, dfrac := t.dfrac, dsig := t.dsig, status := 0x00#8 }

/-- 41_lmul.md R134: the ranges of the decoded tuple. -/
def Obligations.DecodedTupleRanges : Prop :=
  ∀ (b : Byte) (ne : Nat), 1 ≤ ne → ne ≤ 6 →
    ((decodeFp8 b ne).exp = 0 ∨
      (1 - (bias ne : Int) ≤ (decodeFp8 b ne).exp ∧ (decodeFp8 b ne).exp ≤ (expMax ne : Int) - bias ne)) ∧
    -30 ≤ (decodeFp8 b ne).exp ∧ (decodeFp8 b ne).exp ≤ 32 ∧
    (∃ m ≤ manMax ne, fracVal b ne = (m : ℚ) / 2 ^ manWidth ne) ∧
    (sigVal b ne = 0 ∨ (1 ≤ sigVal b ne ∧ sigVal b ne < 2))

/-- 41_lmul.md R132, R133, R136: the reconstructed value of a byte, from its fields. -/
def Obligations.ReconstructedValueOfEachByte : Prop :=
  ∀ (b : Byte) (ne : Nat), 1 ≤ ne → ne ≤ 6 →
    (b.toNat / 2 ^ (7 - ne) % 2 ^ ne = 0 → recon b ne = 0) ∧
    (b.toNat / 2 ^ (7 - ne) % 2 ^ ne ≠ 0 →
      recon b ne = (-1) ^ (b.toNat / 128) * (1 + ((b.toNat % 2 ^ (7 - ne) : Nat) : ℚ) / 2 ^ (7 - ne)) *
        (2 : ℚ) ^ (((b.toNat / 2 ^ (7 - ne) % 2 ^ ne : Nat) : ℤ) - (2 ^ (ne - 1) - 1)))

/-- 41_lmul.md R140, 10_state.md R16 to R18: `APPROX_MULTIPLY` with a valid `ne` completes: `RES` takes the product of
`OPA[7:0]` and `OPB`; nothing else changes. -/
def Obligations.ApproxMultiplyCompletes : Prop :=
  ∀ (ne : Nat) (s : State), 1 ≤ ne → ne ≤ 6 →
    exec (.approxMultiply ne) s = .next { s with
      res := approxMultiply (s.opa.extractLsb' 0 8) s.opb ne
      status := 0x00#8 }

/-- 41_lmul.md R144: the product's pattern denotes exactly `sign * (1 + fx + fy + 2^-lm) * 2^(Ex+Ey)`, for every pair of
bytes, zero and subnormal bytes included; `M` takes no part. `lm` is the step function of R142. -/
def Obligations.ProductIsExact : Prop :=
  ∀ (bx bY : Byte) (ne : Nat), 1 ≤ ne → ne ≤ 6 →
    let lm : Nat := if 7 - ne ≤ 3 then 7 - ne else if 7 - ne = 4 then 3 else 4
    val32 (approxMultiply bx bY ne) =
      (if (decodeFp8 bx ne).sign = (decodeFp8 bY ne).sign then 1 else -1) *
        (1 + fracVal bx ne + fracVal bY ne + 1 / 2 ^ lm) * (2 : ℚ) ^ ((decodeFp8 bx ne).exp + (decodeFp8 bY ne).exp)

/-- 41_lmul.md R145, R141: the product is always a normal number with exponent field 67 to 192, and its sign bit is the
exclusive or of the operands' signs. -/
def Obligations.ProductIsNormal : Prop :=
  ∀ (bx bY : Byte) (ne : Nat), 1 ≤ ne → ne ≤ 6 →
    67 ≤ fp32Exp (approxMultiply bx bY ne) ∧ fp32Exp (approxMultiply bx bY ne) ≤ 192 ∧
    (approxMultiply bx bY ne).getLsbD 31 = (bx.getLsbD 7 ^^ bY.getLsbD 7)

/-- 41_lmul.md R146 (e): the product does not depend on the order of its operands. -/
def Obligations.ProductIsCommutative : Prop :=
  ∀ (bx bY : Byte) (ne : Nat), approxMultiply bx bY ne = approxMultiply bY bx ne

/-- 10_state.md R16: `DECODE` and `APPROX_MULTIPLY` ignore `OPA[31:8]`. -/
def Obligations.UpperOpaBitsAreIgnored : Prop :=
  ∀ (ne : Nat) (s t : State) (w : Word), w.extractLsb' 0 8 = s.opa.extractLsb' 0 8 →
    (exec (.decode ne) s = .next t → exec (.decode ne) { s with opa := w } = .next { t with opa := w }) ∧
    (exec (.approxMultiply ne) s = .next t → exec (.approxMultiply ne) { s with opa := w } = .next { t with opa := w })

/-! ### The accumulating addition and the matrix product -/

/-- 42_matmul.md R165: a finite sum is a nearest finite number to the exact sum, and on a tie the one with the even
significand. -/
def Obligations.FaddRoundsToNearestEven : Prop :=
  ∀ a b c : Word, fp32Finite a = true → fp32Finite b = true → fp32Finite c = true → fp32Finite (fadd32 a b) = true →
    |val32 (fadd32 a b) - (val32 a + val32 b)| ≤ |val32 c - (val32 a + val32 b)| ∧
    (|val32 (fadd32 a b) - (val32 a + val32 b)| = |val32 c - (val32 a + val32 b)| → val32 c ≠ val32 (fadd32 a b) →
      (fadd32 a b).getLsbD 0 = false)

/-- 42_matmul.md R165: a sum overflows to the infinity of its sign exactly when its magnitude reaches the midpoint above the
largest finite number. -/
def Obligations.FaddOverflowsPastTheLargest : Prop :=
  ∀ a b : Word, fp32Finite a = true → fp32Finite b = true →
    (fp32Finite (fadd32 a b) = false ↔ ((2 ^ 25 - 1) * 2 ^ 103 : ℚ) ≤ |val32 a + val32 b|) ∧
    (fp32Finite (fadd32 a b) = false →
      fadd32 a b = if val32 a + val32 b < 0 then 0xFF800000#32 else 0x7F800000#32)

/-- 42_matmul.md R165: an exact zero sum is `-0.0` for two negative zeros and `+0.0` else. -/
def Obligations.FaddZeroSign : Prop :=
  ∀ a b : Word, fp32Finite a = true → fp32Finite b = true → val32 a + val32 b = 0 →
    fadd32 a b = if a = 0x80000000#32 ∧ b = 0x80000000#32 then 0x80000000#32 else 0x00000000#32

/-- 42_matmul.md R165, R166: an exactly representable nonzero sum is not rounded. -/
def Obligations.FaddIsExactOnRepresentableSums : Prop :=
  ∀ a b c : Word, fp32Finite a = true → fp32Finite b = true → fp32Finite c = true → val32 c ≠ 0 →
    val32 c = val32 a + val32 b → fadd32 a b = c

/-- 42_matmul.md R166: an ascending sum of products of any length is `+0.0` or a normal number, an integer multiple of
`2^-61`, and below `2^127` in magnitude. (The rule states the bound for `DIMW <= 60`; it holds for every length.) -/
def Obligations.PartialSumsStayNormal : Prop :=
  ∀ (ne : Nat) (x y : Nat → Byte) (k : Nat), 1 ≤ ne → ne ≤ 6 →
    let acc := sumAscending (fun l => approxMultiply (x l) (y l) ne) k
    NormalOrZero acc ∧ (∃ z : ℤ, val32 acc = z * (2 : ℚ) ^ (-61 : ℤ)) ∧ |val32 acc| < 2 ^ 127

/-- 42_matmul.md R162, R163, R164, 20_memory.md R41: `APPROX_MATMUL` on non-empty conformable written matrices with a valid
`ne` completes: X is quantized with the first draws and Y with the next, element `(i, j)` of the result is the ascending
`fadd32` sum of the approximate products, `ZROWS` and `ZCOLS` take the shape; elements beyond the matrices' sizes and
everything else are unchanged. -/
def Obligations.ApproxMatmulCompletes : Prop :=
  ∀ (ne : Nat) (s : State) (x y : Nat → Word), 1 ≤ ne → ne ≤ 6 → s.xrows ≠ 0 → s.xcols ≠ 0 → s.ycols ≠ 0 →
    s.xcols = s.yrows → (∀ p < s.xrows * s.xcols, s.xf.read p = some (x p)) →
    (∀ q < s.yrows * s.ycols, s.yf.read q = some (y q)) →
    let xb : Nat → Byte := fun p => downcast (x p) ne (drawValue s.rnd p)
    let yb : Nat → Byte := fun q => downcast (y q) ne (drawValue s.rnd (s.xrows * s.xcols + q))
    ∃ t, exec (.approxMatmul ne) s = .next t ∧
      (∀ p < s.xrows * s.xcols, t.xq.read p = some (xb p)) ∧ (∀ p, s.xrows * s.xcols ≤ p → t.xq.read p = s.xq.read p) ∧
      (∀ q < s.yrows * s.ycols, t.yq.read q = some (yb q)) ∧ (∀ q, s.yrows * s.ycols ≤ q → t.yq.read q = s.yq.read q) ∧
      (∀ i < s.xrows, ∀ j < s.ycols, t.zf.read (i * s.ycols + j) = some (sumAscending
        (fun k => approxMultiply (xb (i * s.xcols + k)) (yb (k * s.ycols + j)) ne) s.xcols)) ∧
      (∀ p, s.xrows * s.ycols ≤ p → t.zf.read p = s.zf.read p) ∧
      t = { s with
        xq := t.xq
        yq := t.yq
        zf := t.zf
        zrows := s.xrows
        zcols := s.ycols
        rnd := drawAdvance s.rnd (s.xrows * s.xcols + s.yrows * s.ycols)
        status := 0x00#8 }

/-- 42_matmul.md R168 (a): a 1 by 1 product is one `downcast` of each operand and one approximate multiply, exactly. -/
def Obligations.OneByOneProductIsOneMultiply : Prop :=
  ∀ (ne : Nat) (s : State) (x y : Word), 1 ≤ ne → ne ≤ 6 → s.xrows = 1 → s.xcols = 1 → s.yrows = 1 → s.ycols = 1 →
    s.xf.read 0 = some x → s.yf.read 0 = some y →
    ∃ t, exec (.approxMatmul ne) s = .next t ∧ t.zf.read 0 = some (approxMultiply
      (downcast x ne (drawValue s.rnd 0)) (downcast y ne (drawValue s.rnd 1)) ne)

/-! ### Written programs -/

/-- 30_encoding.md R76: the values that the `RND` lines between two commands state reach the port right before the second of
them; the step that follows runs that command with them; and a command for which none are stated is given none of an
earlier line. That a statement about the port is one of the listed inputs, and that several lines before one command follow
each other, is the model's choice (log 1, log 18). -/
def Obligations.StatedDrawsReachTheFollowingCommand : Prop :=
  (∀ (stated : List Word) (lines rest : List ScriptLine) (c : ScriptLine),
    (∀ l ∈ lines, l.isCommand = false) → c.isCommand = true →
    scriptInputs stated (lines ++ c :: rest) =
      lines.flatMap ScriptLine.accesses ++
        .rnd (stated ++ lines.flatMap ScriptLine.draws) :: (c.accesses ++ scriptInputs [] rest)) ∧
  (∀ (s : State) (ds : List Word) (w : Nat) (rest : List Input),
    s.inputs = .rnd ds :: .writeReg 0 w :: rest → statusBusy s.status = false →
    ∃ t, step s = .next t ∧ step t = exec (decodeWord (BitVec.ofNat 8 w)) { s with
      cmd := BitVec.ofNat 8 w
      status := statusWord 1#1 (statusErr s.status)
      inputs := rest
      rnd := { queue := ds, taken := s.rnd.taken } })
end

