-- ==== Sys2Proof/Laws/Buffer.lean ====
section
/-! SUPPORT. Reads after writes in a buffer, and its canonical form (10_state.md R22; 20_memory.md R44 to R46). -/

namespace Sys2Proof.Machine

variable {w : Nat}

@[simp] theorem Buffer.read_nil (i : Nat) : Buffer.read ([] : Buffer w) i = none := rfl

theorem Buffer.read_cons (a : Nat) (v : BitVec w) (b : Buffer w) (i : Nat) :
    Buffer.read ((a, v) :: b) i = if i = a then some v else Buffer.read b i := rfl

/-- A write's entries are the one written and entries of before. -/
theorem Buffer.mem_write {b : Buffer w} {i : Nat} {v : BitVec w} {e : Nat × BitVec w} (h : e ∈ b.write i v) :
    e = (i, v) ∨ e ∈ b := by
  induction b with
  | nil => simpa [Buffer.write] using h
  | cons hd rest ih =>
    obtain ⟨a, u⟩ := hd
    unfold Buffer.write at h
    split_ifs at h with h1 h2
    · simpa using h
    · rcases List.mem_cons.mp h with h | h
      · exact .inl h
      · exact .inr (List.mem_cons_of_mem _ h)
    · rcases List.mem_cons.mp h with h | h
      · exact .inr (h ▸ List.mem_cons_self ..)
      · exact (ih h).imp id (List.mem_cons_of_mem _)

@[simp] theorem Buffer.read_write_same (b : Buffer w) (i : Nat) (v : BitVec w) : (b.write i v).read i = some v := by
  induction b with
  | nil => simp [Buffer.write, Buffer.read]
  | cons hd rest ih =>
    obtain ⟨a, u⟩ := hd
    unfold Buffer.write
    split_ifs with h1 h2
    · simp [Buffer.read]
    · simp [Buffer.read]
    · simp [Buffer.read, h2, ih]

theorem Buffer.read_write_ne (b : Buffer w) {i j : Nat} (v : BitVec w) (h : j ≠ i) : (b.write i v).read j = b.read j := by
  induction b with
  | nil => simp [Buffer.write, Buffer.read, h]
  | cons hd rest ih =>
    obtain ⟨a, u⟩ := hd
    unfold Buffer.write
    split_ifs with h1 h2
    · simp [Buffer.read, h]
    · simp [Buffer.read, h, ← h2]
    · simp [Buffer.read, ih]

theorem Buffer.read_write (b : Buffer w) (i j : Nat) (v : BitVec w) :
    (b.write i v).read j = if j = i then some v else b.read j := by
  split_ifs with h
  · subst h; exact Buffer.read_write_same b j v
  · exact Buffer.read_write_ne b v h

/-- A write keeps the canonical form. -/
theorem Buffer.wf_write {b : Buffer w} (h : b.wf) (i : Nat) (v : BitVec w) : (b.write i v).wf := by
  induction b with
  | nil => simp [Buffer.wf, Buffer.write]
  | cons hd rest ih =>
    obtain ⟨a, u⟩ := hd
    have hr : Buffer.wf rest := (List.pairwise_cons.mp h).2
    have ha := (List.pairwise_cons.mp h).1
    unfold Buffer.write
    split_ifs with h1 h2
    · refine List.pairwise_cons.mpr ⟨fun e he => ?_, h⟩
      rcases List.mem_cons.mp he with rfl | he
      · exact h1
      · exact lt_trans h1 (ha e he)
    · subst h2
      exact List.pairwise_cons.mpr ⟨ha, hr⟩
    · refine List.pairwise_cons.mpr ⟨fun e he => ?_, ih hr⟩
      rcases Buffer.mem_write he with rfl | he
      · have : a < i := by omega
        exact this
      · exact ha e he

/-- A write inside the bound keeps the bound. -/
theorem Buffer.within_write {b : Buffer w} {n : Nat} (h : b.within n) {i : Nat} (hi : i < n) (v : BitVec w) :
    (b.write i v).within n := by
  intro e he
  rcases Buffer.mem_write he with rfl | he
  · exact hi
  · exact h e he

/-- The memory after reset is in canonical form: nothing is written (10_state.md R27). -/
theorem memory_wf_reset : Memory.wf State.reset := by
  simp [Memory.wf, Buffer.wf, State.reset]

theorem readElement_of_some {id : BufferId} {b : Buffer w} {i : Nat} {v : BitVec w} (h : b.read i = some v) :
    readElement id b i = .ok v := by
  simp [readElement, h]

theorem readElement_of_none {id : BufferId} {b : Buffer w} {i : Nat} (h : b.read i = none) :
    readElement id b i = .error (.unwrittenElement id i) := by
  simp [readElement, h]

/-- What reading an element can do: the written value, or the fault that names the element. -/
theorem readElement_cases (id : BufferId) (b : Buffer w) (i : Nat) :
    (∃ v, b.read i = some v ∧ readElement id b i = .ok v) ∨
      (b.read i = none ∧ readElement id b i = .error (.unwrittenElement id i)) := by
  cases h : b.read i with
  | none => exact .inr ⟨rfl, readElement_of_none h⟩
  | some v => exact .inl ⟨v, rfl, readElement_of_some h⟩

end Sys2Proof.Machine
end

