-- ==== Sys2Proof/Laws/Format.lean ====
section
/-! SUPPORT. The fields of patterns and bytes as quotients and remainders (30_encoding.md R60 to R64), and the status word
(10_state.md R15). -/

namespace Sys2Proof.Machine

theorem neValid_iff (ne : Nat) : neValid ne = true ↔ 1 ≤ ne ∧ ne ≤ 6 := by
  simp [neValid]

/-- The six valid formats, for case splits. -/
theorem ne_cases {ne : Nat} (h1 : 1 ≤ ne) (h6 : ne ≤ 6) :
    ne = 1 ∨ ne = 2 ∨ ne = 3 ∨ ne = 4 ∨ ne = 5 ∨ ne = 6 := by omega

/-! ### FP32 patterns -/

theorem fp32Sign_toNat (v : Word) : (fp32Sign v).toNat = v.toNat / 2 ^ 31 := by
  simp only [fp32Sign, BitVec.extractLsb'_toNat, Nat.shiftRight_eq_div_pow]
  have := v.isLt
  omega

theorem fp32Exp_eq (v : Word) : fp32Exp v = v.toNat / 2 ^ 23 % 256 := by
  simp only [fp32Exp, BitVec.extractLsb'_toNat, Nat.shiftRight_eq_div_pow]

theorem fp32Man_eq (v : Word) : fp32Man v = v.toNat % 2 ^ 23 := by
  simp [fp32Man, BitVec.extractLsb'_toNat]

theorem fp32Exp_lt (v : Word) : fp32Exp v < 256 := by
  rw [fp32Exp_eq]
  omega

theorem fp32Man_lt (v : Word) : fp32Man v < 2 ^ 23 := by
  rw [fp32Man_eq]
  omega

/-- A pattern is its three fields. -/
theorem toNat_eq_fields (v : Word) : v.toNat = (fp32Sign v).toNat * 2 ^ 31 + fp32Exp v * 2 ^ 23 + fp32Man v := by
  rw [fp32Sign_toNat, fp32Exp_eq, fp32Man_eq]
  have := v.isLt
  omega

/-- Two patterns with the same fields are the same. -/
theorem eq_of_fields {v u : Word} (hs : fp32Sign v = fp32Sign u) (he : fp32Exp v = fp32Exp u) (hm : fp32Man v = fp32Man u) :
    v = u :=
  BitVec.eq_of_toNat_eq (by rw [toNat_eq_fields v, toNat_eq_fields u, hs, he, hm])

theorem fp32Pack_toNat (s : BitVec 1) (e : BitVec 8) (m : BitVec 23) :
    (fp32Pack s e m).toNat = s.toNat * 2 ^ 31 + e.toNat * 2 ^ 23 + m.toNat := by
  have h := BitVec.toNat_append (s ++ e) m
  rw [BitVec.toNat_append s e, ← Nat.shiftLeft_add_eq_or_of_lt e.isLt, ← Nat.shiftLeft_add_eq_or_of_lt m.isLt,
    Nat.shiftLeft_eq, Nat.shiftLeft_eq] at h
  refine Eq.trans h ?_
  ring

@[simp] theorem fp32Sign_pack (s : BitVec 1) (e : BitVec 8) (m : BitVec 23) : fp32Sign (fp32Pack s e m) = s := by
  apply BitVec.eq_of_toNat_eq
  rw [fp32Sign_toNat, fp32Pack_toNat]
  have := e.isLt
  have := m.isLt
  omega

@[simp] theorem fp32Exp_pack (s : BitVec 1) (e : BitVec 8) (m : BitVec 23) : fp32Exp (fp32Pack s e m) = e.toNat := by
  rw [fp32Exp_eq, fp32Pack_toNat]
  have := e.isLt
  have := m.isLt
  omega

@[simp] theorem fp32Man_pack (s : BitVec 1) (e : BitVec 8) (m : BitVec 23) : fp32Man (fp32Pack s e m) = m.toNat := by
  rw [fp32Man_eq, fp32Pack_toNat]
  have := m.isLt
  omega

/-! ### FP8 bytes -/

theorem fp8Sign_toNat (b : Byte) : (fp8Sign b).toNat = b.toNat / 128 := by
  simp only [fp8Sign, BitVec.extractLsb'_toNat, Nat.shiftRight_eq_div_pow]
  have := b.isLt
  omega

theorem fp8Man_eq (b : Byte) (ne : Nat) : fp8Man b ne = b.toNat % 2 ^ manWidth ne := by
  simp [fp8Man, manMask, manMax, Nat.and_two_pow_sub_one_eq_mod]

theorem fp8Exp_eq (b : Byte) {ne : Nat} : fp8Exp b ne = b.toNat / 2 ^ manWidth ne % 2 ^ ne := by
  rw [fp8Exp, Nat.shiftRight_and_distrib, expMask, Nat.shiftLeft_shiftRight, expMax, Nat.and_two_pow_sub_one_eq_mod,
    Nat.shiftRight_eq_div_pow]

/-- A byte is its three fields (30_encoding.md R62). -/
theorem toNat_eq_fields8 (b : Byte) {ne : Nat} (h6 : ne ≤ 6) :
    b.toNat = (fp8Sign b).toNat * 128 + fp8Exp b ne * 2 ^ manWidth ne + fp8Man b ne := by
  rw [fp8Sign_toNat, fp8Exp_eq, fp8Man_eq]
  have := b.isLt
  rcases (by omega : ne = 0 ∨ ne = 1 ∨ ne = 2 ∨ ne = 3 ∨ ne = 4 ∨ ne = 5 ∨ ne = 6) with
    rfl | rfl | rfl | rfl | rfl | rfl | rfl <;> simp only [manWidth] <;> norm_num <;> omega

theorem fp8Exp_le (b : Byte) (ne : Nat) : fp8Exp b ne ≤ expMax ne := by
  rw [fp8Exp_eq, expMax]
  have : b.toNat / 2 ^ manWidth ne % 2 ^ ne < 2 ^ ne := Nat.mod_lt _ (by positivity)
  omega

theorem fp8Man_le (b : Byte) (ne : Nat) : fp8Man b ne ≤ manMax ne := by
  rw [fp8Man_eq, manMax]
  have : b.toNat % 2 ^ manWidth ne < 2 ^ manWidth ne := Nat.mod_lt _ (by positivity)
  omega

/-! ### The status word -/

@[simp] theorem statusBusy_statusWord (b : BitVec 1) (e : BitVec 3) : statusBusy (statusWord b e) = b.getLsbD 0 := by
  revert b e
  decide

@[simp] theorem statusErr_statusWord (b : BitVec 1) (e : BitVec 3) : statusErr (statusWord b e) = e := by
  revert b e
  decide

theorem statusWord_idle_toNat (e : BitVec 3) : (statusWord 0#1 e).toNat = e.toNat := by
  revert e
  decide

/-- A status word of at most 4 is not busy. -/
theorem statusBusy_of_le {b : Byte} (h : b.toNat ≤ 4) : statusBusy b = false := by
  revert h
  revert b
  decide

end Sys2Proof.Machine
end

