-- ==== Sys2Proof/Laws/State.lean ====
section
/-! SUPPORT. What the shared updates of State leave in each field (State is in Machine/State.lean). -/

namespace Sys2Proof.Machine

/-! ### endCommand -/

@[simp] theorem endCommand_cmd (e : ErrKind) (s : State) : (endCommand e s).cmd = s.cmd := rfl
@[simp] theorem endCommand_status (e : ErrKind) (s : State) : (endCommand e s).status = statusWord 0#1 (errCode e) := rfl
@[simp] theorem endCommand_opa (e : ErrKind) (s : State) : (endCommand e s).opa = s.opa := rfl
@[simp] theorem endCommand_opb (e : ErrKind) (s : State) : (endCommand e s).opb = s.opb := rfl
@[simp] theorem endCommand_res (e : ErrKind) (s : State) : (endCommand e s).res = s.res := rfl
@[simp] theorem endCommand_dsign (e : ErrKind) (s : State) : (endCommand e s).dsign = s.dsign := rfl
@[simp] theorem endCommand_dexp (e : ErrKind) (s : State) : (endCommand e s).dexp = s.dexp := rfl
@[simp] theorem endCommand_dfrac (e : ErrKind) (s : State) : (endCommand e s).dfrac = s.dfrac := rfl
@[simp] theorem endCommand_dsig (e : ErrKind) (s : State) : (endCommand e s).dsig = s.dsig := rfl
@[simp] theorem endCommand_xrows (e : ErrKind) (s : State) : (endCommand e s).xrows = s.xrows := rfl
@[simp] theorem endCommand_xcols (e : ErrKind) (s : State) : (endCommand e s).xcols = s.xcols := rfl
@[simp] theorem endCommand_yrows (e : ErrKind) (s : State) : (endCommand e s).yrows = s.yrows := rfl
@[simp] theorem endCommand_ycols (e : ErrKind) (s : State) : (endCommand e s).ycols = s.ycols := rfl
@[simp] theorem endCommand_zrows (e : ErrKind) (s : State) : (endCommand e s).zrows = s.zrows := rfl
@[simp] theorem endCommand_zcols (e : ErrKind) (s : State) : (endCommand e s).zcols = s.zcols := rfl
@[simp] theorem endCommand_xf (e : ErrKind) (s : State) : (endCommand e s).xf = s.xf := rfl
@[simp] theorem endCommand_yf (e : ErrKind) (s : State) : (endCommand e s).yf = s.yf := rfl
@[simp] theorem endCommand_xq (e : ErrKind) (s : State) : (endCommand e s).xq = s.xq := rfl
@[simp] theorem endCommand_yq (e : ErrKind) (s : State) : (endCommand e s).yq = s.yq := rfl
@[simp] theorem endCommand_zf (e : ErrKind) (s : State) : (endCommand e s).zf = s.zf := rfl
@[simp] theorem endCommand_rnd (e : ErrKind) (s : State) : (endCommand e s).rnd = s.rnd := rfl
@[simp] theorem endCommand_params (e : ErrKind) (s : State) : (endCommand e s).params = s.params := rfl
@[simp] theorem endCommand_inputs (e : ErrKind) (s : State) : (endCommand e s).inputs = s.inputs := rfl
@[simp] theorem endCommand_received (e : ErrKind) (s : State) : (endCommand e s).received = s.received := rfl

/-! ### startCommand -/

@[simp] theorem startCommand_cmd (c : Byte) (s : State) : (startCommand c s).cmd = c := rfl
@[simp] theorem startCommand_status (c : Byte) (s : State) : (startCommand c s).status = statusWord 1#1 (statusErr s.status) := rfl
@[simp] theorem startCommand_opa (c : Byte) (s : State) : (startCommand c s).opa = s.opa := rfl
@[simp] theorem startCommand_opb (c : Byte) (s : State) : (startCommand c s).opb = s.opb := rfl
@[simp] theorem startCommand_res (c : Byte) (s : State) : (startCommand c s).res = s.res := rfl
@[simp] theorem startCommand_dsign (c : Byte) (s : State) : (startCommand c s).dsign = s.dsign := rfl
@[simp] theorem startCommand_dexp (c : Byte) (s : State) : (startCommand c s).dexp = s.dexp := rfl
@[simp] theorem startCommand_dfrac (c : Byte) (s : State) : (startCommand c s).dfrac = s.dfrac := rfl
@[simp] theorem startCommand_dsig (c : Byte) (s : State) : (startCommand c s).dsig = s.dsig := rfl
@[simp] theorem startCommand_xrows (c : Byte) (s : State) : (startCommand c s).xrows = s.xrows := rfl
@[simp] theorem startCommand_xcols (c : Byte) (s : State) : (startCommand c s).xcols = s.xcols := rfl
@[simp] theorem startCommand_yrows (c : Byte) (s : State) : (startCommand c s).yrows = s.yrows := rfl
@[simp] theorem startCommand_ycols (c : Byte) (s : State) : (startCommand c s).ycols = s.ycols := rfl
@[simp] theorem startCommand_zrows (c : Byte) (s : State) : (startCommand c s).zrows = s.zrows := rfl
@[simp] theorem startCommand_zcols (c : Byte) (s : State) : (startCommand c s).zcols = s.zcols := rfl
@[simp] theorem startCommand_xf (c : Byte) (s : State) : (startCommand c s).xf = s.xf := rfl
@[simp] theorem startCommand_yf (c : Byte) (s : State) : (startCommand c s).yf = s.yf := rfl
@[simp] theorem startCommand_xq (c : Byte) (s : State) : (startCommand c s).xq = s.xq := rfl
@[simp] theorem startCommand_yq (c : Byte) (s : State) : (startCommand c s).yq = s.yq := rfl
@[simp] theorem startCommand_zf (c : Byte) (s : State) : (startCommand c s).zf = s.zf := rfl
@[simp] theorem startCommand_rnd (c : Byte) (s : State) : (startCommand c s).rnd = s.rnd := rfl
@[simp] theorem startCommand_params (c : Byte) (s : State) : (startCommand c s).params = s.params := rfl
@[simp] theorem startCommand_inputs (c : Byte) (s : State) : (startCommand c s).inputs = s.inputs := rfl
@[simp] theorem startCommand_received (c : Byte) (s : State) : (startCommand c s).received = s.received := rfl

/-! ### stateDraws -/

@[simp] theorem stateDraws_cmd (ds : List Word) (s : State) : (stateDraws ds s).cmd = s.cmd := rfl
@[simp] theorem stateDraws_status (ds : List Word) (s : State) : (stateDraws ds s).status = s.status := rfl
@[simp] theorem stateDraws_opa (ds : List Word) (s : State) : (stateDraws ds s).opa = s.opa := rfl
@[simp] theorem stateDraws_opb (ds : List Word) (s : State) : (stateDraws ds s).opb = s.opb := rfl
@[simp] theorem stateDraws_res (ds : List Word) (s : State) : (stateDraws ds s).res = s.res := rfl
@[simp] theorem stateDraws_dsign (ds : List Word) (s : State) : (stateDraws ds s).dsign = s.dsign := rfl
@[simp] theorem stateDraws_dexp (ds : List Word) (s : State) : (stateDraws ds s).dexp = s.dexp := rfl
@[simp] theorem stateDraws_dfrac (ds : List Word) (s : State) : (stateDraws ds s).dfrac = s.dfrac := rfl
@[simp] theorem stateDraws_dsig (ds : List Word) (s : State) : (stateDraws ds s).dsig = s.dsig := rfl
@[simp] theorem stateDraws_xrows (ds : List Word) (s : State) : (stateDraws ds s).xrows = s.xrows := rfl
@[simp] theorem stateDraws_xcols (ds : List Word) (s : State) : (stateDraws ds s).xcols = s.xcols := rfl
@[simp] theorem stateDraws_yrows (ds : List Word) (s : State) : (stateDraws ds s).yrows = s.yrows := rfl
@[simp] theorem stateDraws_ycols (ds : List Word) (s : State) : (stateDraws ds s).ycols = s.ycols := rfl
@[simp] theorem stateDraws_zrows (ds : List Word) (s : State) : (stateDraws ds s).zrows = s.zrows := rfl
@[simp] theorem stateDraws_zcols (ds : List Word) (s : State) : (stateDraws ds s).zcols = s.zcols := rfl
@[simp] theorem stateDraws_xf (ds : List Word) (s : State) : (stateDraws ds s).xf = s.xf := rfl
@[simp] theorem stateDraws_yf (ds : List Word) (s : State) : (stateDraws ds s).yf = s.yf := rfl
@[simp] theorem stateDraws_xq (ds : List Word) (s : State) : (stateDraws ds s).xq = s.xq := rfl
@[simp] theorem stateDraws_yq (ds : List Word) (s : State) : (stateDraws ds s).yq = s.yq := rfl
@[simp] theorem stateDraws_zf (ds : List Word) (s : State) : (stateDraws ds s).zf = s.zf := rfl
@[simp] theorem stateDraws_rnd (ds : List Word) (s : State) : (stateDraws ds s).rnd = { queue := ds, taken := s.rnd.taken } := rfl
@[simp] theorem stateDraws_params (ds : List Word) (s : State) : (stateDraws ds s).params = s.params := rfl
@[simp] theorem stateDraws_inputs (ds : List Word) (s : State) : (stateDraws ds s).inputs = s.inputs := rfl
@[simp] theorem stateDraws_received (ds : List Word) (s : State) : (stateDraws ds s).received = s.received := rfl

/-! ### receive -/

@[simp] theorem receive_cmd (v : Nat) (s : State) : (receive v s).cmd = s.cmd := rfl
@[simp] theorem receive_status (v : Nat) (s : State) : (receive v s).status = s.status := rfl
@[simp] theorem receive_opa (v : Nat) (s : State) : (receive v s).opa = s.opa := rfl
@[simp] theorem receive_opb (v : Nat) (s : State) : (receive v s).opb = s.opb := rfl
@[simp] theorem receive_res (v : Nat) (s : State) : (receive v s).res = s.res := rfl
@[simp] theorem receive_dsign (v : Nat) (s : State) : (receive v s).dsign = s.dsign := rfl
@[simp] theorem receive_dexp (v : Nat) (s : State) : (receive v s).dexp = s.dexp := rfl
@[simp] theorem receive_dfrac (v : Nat) (s : State) : (receive v s).dfrac = s.dfrac := rfl
@[simp] theorem receive_dsig (v : Nat) (s : State) : (receive v s).dsig = s.dsig := rfl
@[simp] theorem receive_xrows (v : Nat) (s : State) : (receive v s).xrows = s.xrows := rfl
@[simp] theorem receive_xcols (v : Nat) (s : State) : (receive v s).xcols = s.xcols := rfl
@[simp] theorem receive_yrows (v : Nat) (s : State) : (receive v s).yrows = s.yrows := rfl
@[simp] theorem receive_ycols (v : Nat) (s : State) : (receive v s).ycols = s.ycols := rfl
@[simp] theorem receive_zrows (v : Nat) (s : State) : (receive v s).zrows = s.zrows := rfl
@[simp] theorem receive_zcols (v : Nat) (s : State) : (receive v s).zcols = s.zcols := rfl
@[simp] theorem receive_xf (v : Nat) (s : State) : (receive v s).xf = s.xf := rfl
@[simp] theorem receive_yf (v : Nat) (s : State) : (receive v s).yf = s.yf := rfl
@[simp] theorem receive_xq (v : Nat) (s : State) : (receive v s).xq = s.xq := rfl
@[simp] theorem receive_yq (v : Nat) (s : State) : (receive v s).yq = s.yq := rfl
@[simp] theorem receive_zf (v : Nat) (s : State) : (receive v s).zf = s.zf := rfl
@[simp] theorem receive_rnd (v : Nat) (s : State) : (receive v s).rnd = s.rnd := rfl
@[simp] theorem receive_params (v : Nat) (s : State) : (receive v s).params = s.params := rfl
@[simp] theorem receive_inputs (v : Nat) (s : State) : (receive v s).inputs = s.inputs := rfl
@[simp] theorem receive_received (v : Nat) (s : State) : (receive v s).received = v :: s.received := rfl

/-! ### resetCore -/

@[simp] theorem resetCore_cmd (s : State) : (resetCore s).cmd = State.reset.cmd := rfl
@[simp] theorem resetCore_status (s : State) : (resetCore s).status = State.reset.status := rfl
@[simp] theorem resetCore_opa (s : State) : (resetCore s).opa = State.reset.opa := rfl
@[simp] theorem resetCore_opb (s : State) : (resetCore s).opb = State.reset.opb := rfl
@[simp] theorem resetCore_res (s : State) : (resetCore s).res = State.reset.res := rfl
@[simp] theorem resetCore_dsign (s : State) : (resetCore s).dsign = State.reset.dsign := rfl
@[simp] theorem resetCore_dexp (s : State) : (resetCore s).dexp = State.reset.dexp := rfl
@[simp] theorem resetCore_dfrac (s : State) : (resetCore s).dfrac = State.reset.dfrac := rfl
@[simp] theorem resetCore_dsig (s : State) : (resetCore s).dsig = State.reset.dsig := rfl
@[simp] theorem resetCore_xrows (s : State) : (resetCore s).xrows = State.reset.xrows := rfl
@[simp] theorem resetCore_xcols (s : State) : (resetCore s).xcols = State.reset.xcols := rfl
@[simp] theorem resetCore_yrows (s : State) : (resetCore s).yrows = State.reset.yrows := rfl
@[simp] theorem resetCore_ycols (s : State) : (resetCore s).ycols = State.reset.ycols := rfl
@[simp] theorem resetCore_zrows (s : State) : (resetCore s).zrows = State.reset.zrows := rfl
@[simp] theorem resetCore_zcols (s : State) : (resetCore s).zcols = State.reset.zcols := rfl
@[simp] theorem resetCore_xf (s : State) : (resetCore s).xf = State.reset.xf := rfl
@[simp] theorem resetCore_yf (s : State) : (resetCore s).yf = State.reset.yf := rfl
@[simp] theorem resetCore_xq (s : State) : (resetCore s).xq = State.reset.xq := rfl
@[simp] theorem resetCore_yq (s : State) : (resetCore s).yq = State.reset.yq := rfl
@[simp] theorem resetCore_zf (s : State) : (resetCore s).zf = State.reset.zf := rfl
@[simp] theorem resetCore_rnd (s : State) : (resetCore s).rnd = s.rnd := rfl
@[simp] theorem resetCore_params (s : State) : (resetCore s).params = s.params := rfl
@[simp] theorem resetCore_inputs (s : State) : (resetCore s).inputs = s.inputs := rfl
@[simp] theorem resetCore_received (s : State) : (resetCore s).received = s.received := rfl

/-! ### The endings of a command -/

theorem raiseError_next (e : ErrKind) (s : State) : raiseError e s = .next (endCommand e s) := rfl

theorem complete_next (s : State) : complete s = .next (endCommand .ok s) := rfl

theorem bufferSize_of_params {s t : State} (h : t.params = s.params) : bufferSize t = bufferSize s := by
  simp [bufferSize, h]

end Sys2Proof.Machine
end

