-- ==== Sys2Proof/Laws/Loops.lean ====
section
/-! SUPPORT. What the element loops can do (40_quantizer.md R121, R122; 42_matmul.md R160 to R163): each lemma says once all
that a loop which answers did, or where it faulted. -/

namespace Sys2Proof.Machine

/-! ### The quantizing loop -/

/-- A loop over written elements answers. -/
theorem quantizeLoop_ok_of_written {id : BufferId} {src : Buffer 32} {dst : Buffer 8} {ne : Nat} {p : DrawPort}
    {base n : Nat} (h : ∀ k < n, ∃ v, src.read k = some v) :
    ∃ q, quantizeLoop id src dst ne p base n = .ok q := by
  induction n with
  | zero => exact ⟨dst, rfl⟩
  | succ n ih =>
    obtain ⟨q, hq⟩ := ih (fun k hk => h k (by omega))
    obtain ⟨v, hv⟩ := h n (by omega)
    exact ⟨q.write n (downcast v ne (drawValue p (base + n))), by simp [quantizeLoop, hq, readElement_of_some hv]⟩

/-- What a loop that answers read and wrote. -/
theorem quantizeLoop_reads {id : BufferId} {src : Buffer 32} {dst q : Buffer 8} {ne : Nat} {p : DrawPort} {base n : Nat}
    (h : quantizeLoop id src dst ne p base n = .ok q) :
    (∀ k < n, ∃ v, src.read k = some v ∧ q.read k = some (downcast v ne (drawValue p (base + k)))) ∧
      ∀ k, n ≤ k → q.read k = dst.read k := by
  induction n generalizing q with
  | zero =>
    obtain rfl : dst = q := by simpa [quantizeLoop] using h
    exact ⟨fun k hk => absurd hk (by omega), fun _ _ => rfl⟩
  | succ n ih =>
    cases hq : quantizeLoop id src dst ne p base n with
    | error f => simp [quantizeLoop, hq] at h
    | ok q' =>
      obtain ⟨hin, hout⟩ := ih hq
      rcases readElement_cases id src n with ⟨v, hv, he⟩ | ⟨_, he⟩
      · obtain rfl : q'.write n (downcast v ne (drawValue p (base + n))) = q := by
          simpa [quantizeLoop, hq, he] using h
        refine ⟨fun k hk => ?_, fun k hk => ?_⟩
        · rcases Nat.lt_succ_iff_lt_or_eq.mp hk with hk | rfl
          · obtain ⟨u, hu, hr⟩ := hin k hk
            exact ⟨u, hu, by rw [Buffer.read_write_ne _ _ (by omega), hr]⟩
          · exact ⟨v, hv, Buffer.read_write_same ..⟩
        · rw [Buffer.read_write_ne _ _ (by omega), hout k (by omega)]
      · simp [quantizeLoop, hq, he] at h

/-- A loop that meets an unwritten element faults, naming the first one. -/
theorem quantizeLoop_fault {id : BufferId} {src : Buffer 32} {dst : Buffer 8} {ne : Nat} {p : DrawPort} {base n k : Nat}
    (hk : k < n) (hw : ∀ j < k, ∃ v, src.read j = some v) (hu : src.read k = none) :
    quantizeLoop id src dst ne p base n = .error (.unwrittenElement id k) := by
  induction n with
  | zero => omega
  | succ n ih =>
    rcases Nat.lt_succ_iff_lt_or_eq.mp hk with hk | rfl
    · simp [quantizeLoop, ih hk]
    · obtain ⟨q, hq⟩ := quantizeLoop_ok_of_written (id := id) (dst := dst) (ne := ne) (p := p) (base := base) hw
      simp [quantizeLoop, hq, readElement_of_none hu]

/-- The loop keeps the canonical form and every bound its elements respect. -/
theorem quantizeLoop_keeps {id : BufferId} {src : Buffer 32} {dst q : Buffer 8} {ne : Nat} {p : DrawPort} {base n : Nat}
    (h : quantizeLoop id src dst ne p base n = .ok q) :
    (dst.wf → q.wf) ∧ ∀ m, n ≤ m → dst.within m → q.within m := by
  induction n generalizing q with
  | zero =>
    obtain rfl : dst = q := by simpa [quantizeLoop] using h
    exact ⟨fun hd => hd, fun _ _ hm => hm⟩
  | succ n ih =>
    cases hq : quantizeLoop id src dst ne p base n with
    | error f => simp [quantizeLoop, hq] at h
    | ok q' =>
      obtain ⟨hwf, hin⟩ := ih hq
      rcases readElement_cases id src n with ⟨v, -, he⟩ | ⟨_, he⟩
      · obtain rfl : q'.write n (downcast v ne (drawValue p (base + n))) = q := by
          simpa [quantizeLoop, hq, he] using h
        exact ⟨fun hd => Buffer.wf_write (hwf hd) .., fun m hm hd =>
          Buffer.within_write (hin m (by omega) hd) (by omega) _⟩
      · simp [quantizeLoop, hq, he] at h

/-! ### The accumulation -/

/-- The accumulation over written bytes is the ascending sum of the products (42_matmul.md R163), for any function `acc`
that satisfies the rule's two equations. -/
theorem macLoop_eq {xq yq : Buffer 8} {ne kk n i j : Nat} {x y : Nat → Byte} {acc : Nat → Word} {k : Nat}
    (hx : ∀ l < k, xq.read (matrixIndex kk i l) = some (x l)) (hy : ∀ l < k, yq.read (matrixIndex n l j) = some (y l))
    (h0 : acc 0 = 0x00000000#32) (hs : ∀ l, acc (l + 1) = fadd32 (acc l) (approxMultiply (x l) (y l) ne)) :
    macLoop xq yq ne kk n i j k = .ok (acc k) := by
  induction k with
  | zero => simp [macLoop, h0]
  | succ k ih =>
    have := ih (fun l hl => hx l (by omega)) (fun l hl => hy l (by omega))
    simp [macLoop, this, readElement_of_some (hx k (by omega)), readElement_of_some (hy k (by omega)), hs]

/-- An accumulation that answers is an ascending sum of products of two sequences of bytes. -/
theorem macLoop_inv {xq yq : Buffer 8} {ne kk n i j k : Nat} {z : Word} (h : macLoop xq yq ne kk n i j k = .ok z)
    {P : Nat → Word → Prop} (h0 : P 0 0x00000000#32)
    (hs : ∀ l a bx bY, P l a → P (l + 1) (fadd32 a (approxMultiply bx bY ne))) : P k z := by
  induction k generalizing z with
  | zero =>
    obtain rfl : 0x00000000#32 = z := by simpa [macLoop] using h
    exact h0
  | succ k ih =>
    cases hm : macLoop xq yq ne kk n i j k with
    | error f => simp [macLoop, hm] at h
    | ok a =>
      rcases readElement_cases .xq xq (matrixIndex kk i k) with ⟨bx, -, hx⟩ | ⟨-, hx⟩
      · rcases readElement_cases .yq yq (matrixIndex n k j) with ⟨bY, -, hy⟩ | ⟨-, hy⟩
        · obtain rfl : fadd32 a (approxMultiply bx bY ne) = z := by simpa [macLoop, hm, hx, hy] using h
          exact hs k a bx bY (ih hm)
        · simp [macLoop, hm, hx, hy] at h
      · simp [macLoop, hm, hx] at h

/-! ### The output loop -/

theorem matrixIndex_div_mod (n p : Nat) : matrixIndex n (p / n) (p % n) = p := by
  rw [matrixIndex, Nat.mul_comm, Nat.div_add_mod]

/-- The output loop answers when every element's accumulation does. -/
theorem productLoop_ok {xq yq : Buffer 8} {zf : Buffer 32} {ne kk n m : Nat} {z : Nat → Word}
    (h : ∀ p < m, macLoop xq yq ne kk n (p / n) (p % n) kk = .ok (z p)) :
    ∃ b, productLoop xq yq zf ne kk n m = .ok b ∧ (∀ p < m, b.read p = some (z p)) ∧ ∀ p, m ≤ p → b.read p = zf.read p := by
  induction m with
  | zero => exact ⟨zf, rfl, fun p hp => absurd hp (by omega), fun _ _ => rfl⟩
  | succ m ih =>
    obtain ⟨b, hb, hin, hout⟩ := ih (fun p hp => h p (by omega))
    refine ⟨b.write m (z m), by simp [productLoop, hb, h m (by omega), matrixIndex_div_mod], fun p hp => ?_, fun p hp => ?_⟩
    · rcases Nat.lt_succ_iff_lt_or_eq.mp hp with hp | rfl
      · rw [Buffer.read_write_ne _ _ (by omega), hin p hp]
      · exact Buffer.read_write_same ..
    · rw [Buffer.read_write_ne _ _ (by omega), hout p (by omega)]

/-- What an output loop that answers keeps: the canonical form, the bounds, and any property of every element that every
accumulation has. -/
theorem productLoop_keeps {xq yq : Buffer 8} {zf b : Buffer 32} {ne kk n m : Nat}
    (h : productLoop xq yq zf ne kk n m = .ok b) :
    (zf.wf → b.wf) ∧ (∀ l, m ≤ l → zf.within l → b.within l) ∧
      ∀ P : Word → Prop, (∀ i j z, macLoop xq yq ne kk n i j kk = .ok z → P z) → (∀ e ∈ zf, P e.2) → ∀ e ∈ b, P e.2 := by
  induction m generalizing b with
  | zero =>
    obtain rfl : zf = b := by simpa [productLoop] using h
    exact ⟨fun hz => hz, fun _ _ hl => hl, fun _ _ hz => hz⟩
  | succ m ih =>
    cases hp : productLoop xq yq zf ne kk n m with
    | error f => simp [productLoop, hp] at h
    | ok b' =>
      obtain ⟨hwf, hin, hall⟩ := ih hp
      cases hm : macLoop xq yq ne kk n (m / n) (m % n) kk with
      | error f => simp [productLoop, hp, hm] at h
      | ok z =>
        obtain rfl : b'.write m z = b := by simpa [productLoop, hp, hm, matrixIndex_div_mod] using h
        refine ⟨fun hz => Buffer.wf_write (hwf hz) .., fun l hl hz => Buffer.within_write (hin l (by omega) hz) (by omega) _,
          fun P hP hz e he => ?_⟩
        rcases Buffer.mem_write he with rfl | he
        · exact hP _ _ _ hm
        · exact hall P hP hz e he

end Sys2Proof.Machine
end

