-- ==== Sys2Proof/Laws/Exec.lean ====
section
/-! SUPPORT. What the meanings can do when they answer a next state: an error's entry or the command's effect, one lemma per
shape of command (60_exceptions.md R190, R191). -/

namespace Sys2Proof.Machine

/-- A scalar command: `InvalidFormat`, or its effect under a valid `ne`. -/
theorem scalar_next {ne : Nat} {s t u : State}
    (h : (if neValid ne then complete u else raiseError .invalidFormat s) = .next t) :
    (¬(1 ≤ ne ∧ ne ≤ 6) ∧ t = endCommand .invalidFormat s) ∨ (1 ≤ ne ∧ ne ≤ 6 ∧ t = endCommand .ok u) := by
  by_cases hv : neValid ne = true
  · rw [if_pos hv] at h
    injection h with h
    exact .inr ⟨((neValid_iff ne).mp hv).1, ((neValid_iff ne).mp hv).2, h.symm⟩
  · rw [if_neg hv] at h
    injection h with h
    exact .inl ⟨fun hn => hv ((neValid_iff ne).mpr hn), h.symm⟩

theorem isEmptyShape_iff (r c : Nat) : isEmptyShape r c = true ↔ r = 0 ∨ c = 0 := by
  simp [isEmptyShape]

/-- `DOWNCAST_MATRIX` that answers a next state: an error, or the quantized matrix. -/
theorem downcastMatrix_next {ne : Nat} {s t : State} (h : execDowncastMatrix ne s = .next t) :
    t = endCommand .emptyInput s ∨ t = endCommand .invalidFormat s ∨
    (s.xrows ≠ 0 ∧ s.xcols ≠ 0 ∧ 1 ≤ ne ∧ ne ≤ 6 ∧ ∃ q,
      quantizeLoop .xf s.xf s.xq ne s.rnd 0 (s.xrows * s.xcols) = .ok q ∧
      t = endCommand .ok { s with xq := q, rnd := drawAdvance s.rnd (s.xrows * s.xcols) }) := by
  unfold execDowncastMatrix at h
  split_ifs at h with he hv
  · injection h with h
    exact .inl h.symm
  · injection h with h
    exact .inr (.inl h.symm)
  · have hs := mt (isEmptyShape_iff _ _).mpr he
    have hn := (neValid_iff ne).mp (by simpa using hv)
    cases hq : quantizeLoop .xf s.xf s.xq ne s.rnd 0 (s.xrows * s.xcols) with
    | error f => rw [hq] at h; cases h
    | ok q =>
      rw [hq] at h
      injection h with h
      push Not at hs
      exact .inr (.inr ⟨hs.1, hs.2, hn.1, hn.2, q, rfl, h.symm⟩)

/-- `APPROX_MATMUL` that answers a next state: an error, or both phases done. -/
theorem approxMatmul_next {ne : Nat} {s t : State} (h : execApproxMatmul ne s = .next t) :
    t = endCommand .emptyInput s ∨ t = endCommand .invalidFormat s ∨ t = endCommand .dimensionMismatch s ∨
    (s.xrows ≠ 0 ∧ s.xcols ≠ 0 ∧ 1 ≤ ne ∧ ne ≤ 6 ∧ s.yrows ≠ 0 ∧ s.ycols ≠ 0 ∧ s.xcols = s.yrows ∧ ∃ xq yq zf,
      quantizeLoop .xf s.xf s.xq ne s.rnd 0 (s.xrows * s.xcols) = .ok xq ∧
      quantizeLoop .yf s.yf s.yq ne s.rnd (s.xrows * s.xcols) (s.yrows * s.ycols) = .ok yq ∧
      productLoop xq yq s.zf ne s.xcols s.ycols (s.xrows * s.ycols) = .ok zf ∧
      t = endCommand .ok { s with
        xq := xq
        yq := yq
        zf := zf
        zrows := s.xrows
        zcols := s.ycols
        rnd := drawAdvance s.rnd (s.xrows * s.xcols + s.yrows * s.ycols) }) := by
  unfold execApproxMatmul at h
  split_ifs at h with he hv hy hm
  · injection h with h
    exact .inl h.symm
  · injection h with h
    exact .inr (.inl h.symm)
  · injection h with h
    exact .inl h.symm
  · injection h with h
    exact .inr (.inr (.inl h.symm))
  · have hs := mt (isEmptyShape_iff _ _).mpr he
    have hs' := mt (isEmptyShape_iff _ _).mpr hy
    have hn := (neValid_iff ne).mp (by simpa using hv)
    have hc : s.xcols = s.yrows := by simpa using hm
    push Not at hs hs'
    unfold multiplyMatrices at h
    cases hx : quantizeLoop .xf s.xf s.xq ne s.rnd 0 (s.xrows * s.xcols) with
    | error f => simp [hx] at h
    | ok xq =>
      cases hyq : quantizeLoop .yf s.yf s.yq ne s.rnd (s.xrows * s.xcols) (s.yrows * s.ycols) with
      | error f => simp [hx, hyq] at h
      | ok yq =>
        cases hz : productLoop xq yq s.zf ne s.xcols s.ycols (s.xrows * s.ycols) with
        | error f => simp [hx, hyq, hz] at h
        | ok zf =>
          simp only [hx, hyq, hz, complete] at h
          injection h with h
          exact .inr (.inr (.inr ⟨hs.1, hs.2, hn.1, hn.2, hs'.1, hs'.2, hc, xq, yq, zf, rfl, rfl, hz, h.symm⟩))

/-- Every command that answers a next state: an error's entry, or the effect of one of the five operations. -/
theorem exec_cases {i : Instr} {s t : State} (h : exec i s = .next t) :
    (∃ e, e ≠ .ok ∧ t = endCommand e s) ∨
    (∃ ne, i = .downcast ne ∧ 1 ≤ ne ∧ ne ≤ 6 ∧ t = endCommand .ok { s with
      res := (downcast s.opa ne (drawValue s.rnd 0)).setWidth 32
      rnd := drawAdvance s.rnd 1 }) ∨
    (∃ ne, i = .decode ne ∧ 1 ≤ ne ∧ ne ≤ 6 ∧ t = endCommand .ok { s with
      dsign := (decodeFp8 (opaByte s) ne).sign
      dexp := BitVec.ofInt 8 (decodeFp8 (opaByte s) ne).exp
      dfrac := BitVec.ofNat 6 (scale64 ne (decodeFp8 (opaByte s) ne).frac)
      dsig := BitVec.ofNat 7 (scale64 ne (decodeFp8 (opaByte s) ne).sig) }) ∨
    (∃ ne, i = .approxMultiply ne ∧ 1 ≤ ne ∧ ne ≤ 6 ∧ t = endCommand .ok { s with res := approxMultiply (opaByte s) s.opb ne }) ∨
    (∃ ne q, i = .downcastMatrix ne ∧ s.xrows ≠ 0 ∧ s.xcols ≠ 0 ∧ 1 ≤ ne ∧ ne ≤ 6 ∧
      quantizeLoop .xf s.xf s.xq ne s.rnd 0 (s.xrows * s.xcols) = .ok q ∧
      t = endCommand .ok { s with xq := q, rnd := drawAdvance s.rnd (s.xrows * s.xcols) }) ∨
    (∃ ne xq yq zf, i = .approxMatmul ne ∧ s.xrows ≠ 0 ∧ s.xcols ≠ 0 ∧ 1 ≤ ne ∧ ne ≤ 6 ∧ s.yrows ≠ 0 ∧ s.ycols ≠ 0 ∧
      s.xcols = s.yrows ∧
      quantizeLoop .xf s.xf s.xq ne s.rnd 0 (s.xrows * s.xcols) = .ok xq ∧
      quantizeLoop .yf s.yf s.yq ne s.rnd (s.xrows * s.xcols) (s.yrows * s.ycols) = .ok yq ∧
      productLoop xq yq s.zf ne s.xcols s.ycols (s.xrows * s.ycols) = .ok zf ∧
      t = endCommand .ok { s with
        xq := xq
        yq := yq
        zf := zf
        zrows := s.xrows
        zcols := s.ycols
        rnd := drawAdvance s.rnd (s.xrows * s.xcols + s.yrows * s.ycols) }) := by
  cases i with
  | downcast ne =>
    rcases scalar_next h with ⟨_, h⟩ | ⟨h1, h6, h⟩
    · exact .inl ⟨_, by decide, h⟩
    · exact .inr (.inl ⟨ne, rfl, h1, h6, h⟩)
  | downcastMatrix ne =>
    rcases downcastMatrix_next h with h | h | ⟨a, b, c, d, q, hq, h⟩
    · exact .inl ⟨_, by decide, h⟩
    · exact .inl ⟨_, by decide, h⟩
    · exact .inr (.inr (.inr (.inr (.inl ⟨ne, q, rfl, a, b, c, d, hq, h⟩))))
  | decode ne =>
    rcases scalar_next h with ⟨_, h⟩ | ⟨h1, h6, h⟩
    · exact .inl ⟨_, by decide, h⟩
    · exact .inr (.inr (.inl ⟨ne, rfl, h1, h6, h⟩))
  | approxMultiply ne =>
    rcases scalar_next h with ⟨_, h⟩ | ⟨h1, h6, h⟩
    · exact .inl ⟨_, by decide, h⟩
    · exact .inr (.inr (.inr (.inl ⟨ne, rfl, h1, h6, h⟩)))
  | approxMatmul ne =>
    rcases approxMatmul_next h with h | h | h | ⟨a, b, c, d, e, f, g, xq, yq, zf, hx, hy, hz, h⟩
    · exact .inl ⟨_, by decide, h⟩
    · exact .inl ⟨_, by decide, h⟩
    · exact .inl ⟨_, by decide, h⟩
    · exact .inr (.inr (.inr (.inr (.inr ⟨ne, xq, yq, zf, rfl, a, b, c, d, e, f, g, hx, hy, hz, h⟩))))
  | _ => injection h with h; exact .inl ⟨.illegalCommand, by decide, h.symm⟩

/-- The row of a command word is the one its `op` field selects (30_encoding.md R71). -/
theorem opOf_decodeWord (c : Byte) : opOf (decodeWord c) = c.toNat % 16 := by
  have h : c.toNat % 16 < 16 := by omega
  rw [decodeWord, opField]
  generalize c.toNat % 16 = op at h
  interval_cases op <;> rfl

end Sys2Proof.Machine
end

