-- ==== Sys2Proof/Laws/Fadd.lean ====
section
/-! SUPPORT. The exact integers behind `fadd32` (42_matmul.md R165): what a pattern's fixed-point magnitude is, what rounding
does to a magnitude, and which pattern it is packed into. -/

namespace Sys2Proof.Machine

/-! ### Patterns as integers of the unit `2^-149` -/

/-- A finite pattern denotes its fixed-point value over `2^149`. -/
theorem val32_eq_fixed (v : Word) : val32 v = (fixedVal v : ℚ) / 2 ^ 149 := by
  have hs : (fp32Sign v).toNat = 0 ∨ (fp32Sign v).toNat = 1 := by
    have := (fp32Sign v).isLt
    omega
  have hmag : (if fp32Exp v = 0 then (2 : ℚ) ^ (-126 : ℤ) * (fp32Man v / 2 ^ 23)
      else (2 : ℚ) ^ ((fp32Exp v : ℤ) - 127) * (1 + fp32Man v / 2 ^ 23)) = (fixedMag v : ℚ) / 2 ^ 149 := by
    unfold fixedMag
    split_ifs with h
    · norm_num
      ring
    · rw [Nat.shiftLeft_eq, show (fp32Exp v : ℤ) - 127 = ((fp32Exp v - 1 : ℕ) : ℤ) - 126 by omega, zpow_sub₀ (by norm_num),
        zpow_natCast]
      push_cast
      norm_num
      ring
  unfold val32 fixedVal
  rw [hmag]
  rcases hs with hs | hs
  · have : fp32Sign v ≠ 1#1 := fun h => by simp [h] at hs
    simp [hs, this]
  · have : fp32Sign v = 1#1 := BitVec.eq_of_toNat_eq (by simpa using hs)
    rw [hs, if_pos this]
    push_cast
    ring

/-- A magnitude that some finite pattern has: a significand of at most 24 bits at an exponent of at most 253. -/
def Representable (y : Nat) : Prop := ∃ m k, m < 2 ^ 24 ∧ k ≤ 253 ∧ y = m * 2 ^ k

theorem fixedMag_representable {v : Word} (h : fp32Finite v = true) : Representable (fixedMag v) := by
  have hf : fp32Exp v < 255 := by simpa [fp32Finite] using h
  have hm := fp32Man_lt v
  unfold fixedMag
  split_ifs with h0
  · exact ⟨fp32Man v, 0, by omega, by omega, by simp⟩
  · exact ⟨2 ^ 23 + fp32Man v, fp32Exp v - 1, by omega, by omega, Nat.shiftLeft_eq ..⟩

theorem fixedVal_natAbs (v : Word) : (fixedVal v).natAbs = fixedMag v := by
  unfold fixedVal
  split_ifs <;> simp

/-! ### Rounding -/

/-- `roundEven y k` is within half a unit of `y / 2^k`, and on a tie it is even. -/
theorem roundEven_spec (y k : Nat) :
    (2 * (roundEven y k * 2 ^ k) ≤ 2 * y + 2 ^ k ∧ 2 * y ≤ 2 * (roundEven y k * 2 ^ k) + 2 ^ k) ∧
      (2 * (roundEven y k * 2 ^ k) = 2 * y + 2 ^ k ∨ 2 * y = 2 * (roundEven y k * 2 ^ k) + 2 ^ k →
        roundEven y k % 2 = 0) := by
  have hd := Nat.div_add_mod y (2 ^ k)
  have hr : y % 2 ^ k < 2 ^ k := Nat.mod_lt _ (by positivity)
  unfold roundEven
  rw [Nat.shiftRight_eq_div_pow]
  dsimp only
  generalize y / 2 ^ k = q at *
  generalize y % 2 ^ k = r at *
  generalize 2 ^ k = u at *
  subst hd
  split_ifs with h1 h2
  · constructor
    · constructor <;> nlinarith
    · intro h
      exfalso
      rcases h with h | h <;> nlinarith
  · constructor
    · constructor <;> nlinarith
    · intro h
      exfalso
      rcases h with h | h <;> nlinarith
  · have h3 : 2 * r = u := by omega
    rcases Nat.even_or_odd' q with ⟨c, rfl | rfl⟩
    · have : (2 * c + (2 * c) % 2) = 2 * c := by omega
      rw [this]
      refine ⟨⟨by nlinarith, by nlinarith⟩, fun _ => by omega⟩
    · have : (2 * c + 1 + (2 * c + 1) % 2) = 2 * c + 2 := by omega
      rw [this]
      refine ⟨⟨by nlinarith, by nlinarith⟩, fun _ => by omega⟩

/-- A multiple of the unit is not rounded. -/
theorem roundEven_mul (n k : Nat) : roundEven (n * 2 ^ k) k = n := by
  unfold roundEven
  simp [Nat.shiftRight_eq_div_pow]

/-- The rounded magnitude, in the unit `2^-149`. -/
def roundedMag (y : Nat) : Nat := roundedSig y * 2 ^ scaleExp y

/-- The magnitude's place: below `2^24` units of its exponent, and at least `2^23` of them unless the exponent is the least. -/
theorem scale_bounds {y : Nat} (hy : 0 < y) :
    y < 2 ^ 24 * 2 ^ scaleExp y ∧ (scaleExp y ≠ 0 → 2 ^ 23 * 2 ^ scaleExp y ≤ y) := by
  unfold scaleExp
  have h1 := Nat.log2_self_le (n := y) (by omega)
  have h2 := Nat.lt_log2_self (n := y)
  rw [← pow_add, ← pow_add]
  refine ⟨lt_of_lt_of_le h2 (Nat.pow_le_pow_right (by norm_num) (by omega)), fun h => ?_⟩
  refine le_trans (Nat.pow_le_pow_right (by norm_num) ?_) h1
  omega

/-- The rounded significand's range. -/
theorem roundedSig_bounds {y : Nat} (hy : 0 < y) :
    roundedSig y ≤ 2 ^ 24 ∧ (scaleExp y ≠ 0 → 2 ^ 23 ≤ roundedSig y) := by
  obtain ⟨hlt, hge⟩ := scale_bounds hy
  obtain ⟨⟨hup, hlo⟩, -⟩ := roundEven_spec y (scaleExp y)
  unfold roundedSig
  have hu : 0 < 2 ^ scaleExp y := by positivity
  generalize roundEven y (scaleExp y) = n at *
  generalize scaleExp y = k at *
  constructor
  · by_contra hc
    have : (2 ^ 24 + 1) * 2 ^ k ≤ n * 2 ^ k := Nat.mul_le_mul_right _ (by omega)
    nlinarith
  · intro hk
    have := hge hk
    by_contra hc
    have : (n + 1) * 2 ^ k ≤ 2 ^ 23 * 2 ^ k := Nat.mul_le_mul_right _ (by omega)
    nlinarith

/-- No representable magnitude is nearer to `y` than the rounded one; an equally near other one leaves an even significand. -/
theorem roundedMag_nearest {y c : Nat} (hy : 0 < y) (hc : Representable c) :
    |(roundedMag y : ℤ) - y| ≤ |(c : ℤ) - y| ∧
      (|(roundedMag y : ℤ) - y| = |(c : ℤ) - y| → c ≠ roundedMag y → roundedSig y % 2 = 0) := by
  obtain ⟨m, j, hm, -, rfl⟩ := hc
  obtain ⟨hlt, hge⟩ := scale_bounds hy
  obtain ⟨⟨hup, hlo⟩, htie⟩ := roundEven_spec y (scaleExp y)
  have hu : 0 < 2 ^ scaleExp y := by positivity
  change |((roundEven y (scaleExp y) * 2 ^ scaleExp y : ℕ) : ℤ) - y| ≤ _ ∧
    (|((roundEven y (scaleExp y) * 2 ^ scaleExp y : ℕ) : ℤ) - y| = _ → _ ≠ roundEven y (scaleExp y) * 2 ^ scaleExp y →
      roundEven y (scaleExp y) % 2 = 0)
  -- either `c` is a multiple of the unit, or it lies below the binade, where the binade's lower end is nearer
  have hcase : (∃ p, m * 2 ^ j = p * 2 ^ scaleExp y) ∨
      (m * 2 ^ j < 2 ^ 23 * 2 ^ scaleExp y ∧ 2 ^ 23 * 2 ^ scaleExp y ≤ y) := by
    by_cases hj : scaleExp y ≤ j
    · left
      exact ⟨m * 2 ^ (j - scaleExp y), by rw [mul_assoc, ← pow_add, Nat.sub_add_cancel hj]⟩
    · right
      refine ⟨?_, hge (by omega)⟩
      calc m * 2 ^ j < 2 ^ 24 * 2 ^ j := Nat.mul_lt_mul_of_pos_right hm (by positivity)
        _ = 2 ^ 23 * 2 ^ (j + 1) := by ring
        _ ≤ 2 ^ 23 * 2 ^ scaleExp y := Nat.mul_le_mul_left _ (Nat.pow_le_pow_right (by norm_num) (by omega))
  generalize roundEven y (scaleExp y) = n at *
  generalize hU : 2 ^ scaleExp y = u at *
  -- the distance from a multiple of the unit other than the rounded one is at least half a unit
  have hfar : ∀ p : ℕ, p ≠ n → (u : ℤ) ≤ 2 * |((p * u : ℕ) : ℤ) - y| := by
    intro p hp
    rcases Nat.lt_or_gt_of_ne hp with hp | hp
    · have h : (p + 1) * u ≤ n * u := Nat.mul_le_mul_right _ hp
      have h' : ((p : ℤ) + 1) * u ≤ n * u := by exact_mod_cast h
      have h2 : 2 * ((n : ℤ) * u) ≤ 2 * y + u := by exact_mod_cast hup
      have : -((((p * u : ℕ) : ℤ)) - y) ≤ |((p * u : ℕ) : ℤ) - y| := neg_le_abs _
      push_cast at *
      linarith
    · have h : (n + 1) * u ≤ p * u := Nat.mul_le_mul_right _ hp
      have h' : ((n : ℤ) + 1) * u ≤ p * u := by exact_mod_cast h
      have h2 : 2 * (y : ℤ) ≤ 2 * (n * u) + u := by exact_mod_cast hlo
      have : (((p * u : ℕ) : ℤ)) - y ≤ |((p * u : ℕ) : ℤ) - y| := le_abs_self _
      push_cast at *
      linarith
  have hnear : 2 * |((n * u : ℕ) : ℤ) - y| ≤ u := by
    have h1 : 2 * ((n : ℤ) * u) ≤ 2 * y + u := by exact_mod_cast hup
    have h2 : 2 * (y : ℤ) ≤ 2 * (n * u) + u := by exact_mod_cast hlo
    rcases abs_cases (((n * u : ℕ) : ℤ) - y) with ⟨h, -⟩ | ⟨h, -⟩ <;> rw [h] <;> push_cast <;> linarith
  have htie' : 2 * |((n * u : ℕ) : ℤ) - y| = u → n % 2 = 0 := by
    intro h
    apply htie
    rcases abs_cases (((n * u : ℕ) : ℤ) - y) with ⟨h', -⟩ | ⟨h', -⟩ <;> rw [h'] at h <;> push_cast at h
    · left
      zify
      linarith
    · right
      zify
      linarith
  rcases hcase with ⟨p, hp⟩ | ⟨hlow, hbin⟩
  · rw [hp]
    by_cases hpn : p = n
    · subst hpn
      exact ⟨le_rfl, fun _ hne => absurd rfl hne⟩
    · have := hfar p hpn
      exact ⟨by linarith, fun heq _ => htie' (by rw [heq] at hnear ⊢; linarith)⟩
  · have hge' : |((2 ^ 23 * u : ℕ) : ℤ) - y| < |((m * 2 ^ j : ℕ) : ℤ) - y| := by
      have h1 : ((2 ^ 23 * u : ℕ) : ℤ) ≤ y := by exact_mod_cast hbin
      have h2 : ((m * 2 ^ j : ℕ) : ℤ) < ((2 ^ 23 * u : ℕ) : ℤ) := by exact_mod_cast hlow
      rw [abs_of_nonpos (by linarith), abs_of_nonpos (by linarith)]
      linarith
    have hle : |((n * u : ℕ) : ℤ) - y| ≤ |((2 ^ 23 * u : ℕ) : ℤ) - y| := by
      by_cases hpn : 2 ^ 23 = n
      · rw [← hpn]
      · have := hfar _ hpn
        linarith
    exact ⟨by linarith, fun heq _ => absurd heq (by linarith)⟩

/-- A representable magnitude is not rounded. -/
theorem roundedMag_of_representable {y : Nat} (hy : 0 < y) (h : Representable y) : roundedMag y = y := by
  have := (roundedMag_nearest hy h).1
  simp only [sub_self, abs_zero] at this
  have := abs_nonpos_iff.mp this
  omega

/-- Rounding does not pass a representable bound. -/
theorem roundedMag_le {y b : Nat} (hy : 0 < y) (hb : Representable b) (h : y ≤ b) : roundedMag y ≤ b := by
  by_contra hc
  have hn := (roundedMag_nearest hy hb).1
  rw [abs_of_nonneg (by omega), abs_of_nonneg (by omega)] at hn
  omega

/-- Rounding keeps divisibility by a power of two. -/
theorem dvd_roundedMag {y p : Nat} (h : 2 ^ p ∣ y) : 2 ^ p ∣ roundedMag y := by
  by_cases hp : p ≤ scaleExp y
  · exact Dvd.dvd.mul_left (pow_dvd_pow 2 hp) _
  · obtain ⟨z, rfl⟩ := h
    have h1 : 2 ^ p * z = z * 2 ^ (p - scaleExp (2 ^ p * z)) * 2 ^ scaleExp (2 ^ p * z) := by
      rw [mul_assoc, ← pow_add, Nat.sub_add_cancel (by omega), mul_comm]
    have h2 : roundedSig (2 ^ p * z) = z * 2 ^ (p - scaleExp (2 ^ p * z)) := by
      unfold roundedSig
      conv_lhs => rw [h1]
      rw [← h1]
      conv_lhs => arg 1; rw [h1]
      exact roundEven_mul _ _
    rw [roundedMag, h2, ← h1]
    exact Dvd.intro _ rfl

/-! ### Packing -/

/-- What a significand in range at exponent `k` packs into: the pattern of that sign and magnitude. -/
theorem packRounded_spec {sgn : BitVec 1} {n k : Nat} (hn : n < 2 ^ 24) (hk : k ≤ 253) (hnk : k ≠ 0 → 2 ^ 23 ≤ n) :
    fp32Finite (packRounded sgn n k) = true ∧ fp32Sign (packRounded sgn n k) = sgn ∧
      fixedMag (packRounded sgn n k) = n * 2 ^ k ∧ fp32Man (packRounded sgn n k) % 2 = n % 2 ∧
      (2 ^ 23 ≤ n → 1 ≤ fp32Exp (packRounded sgn n k) ∧ fp32Exp (packRounded sgn n k) ≤ 254) := by
  unfold packRounded
  rw [if_neg (by omega)]
  split_ifs with h
  · have hk0 : k = 0 := by
      by_contra hc
      have := hnk hc
      omega
    subst hk0
    have : n % 2 ^ 23 = n := Nat.mod_eq_of_lt h
    refine ⟨by simp [fp32Finite], by simp, by simp [fixedMag]; omega, by simp, fun h' => by omega⟩
  · have h1 : (k + 1) % 2 ^ 8 = k + 1 := Nat.mod_eq_of_lt (by omega)
    have h2 : (n - 2 ^ 23) % 2 ^ 23 = n - 2 ^ 23 := Nat.mod_eq_of_lt (by omega)
    refine ⟨by simp [fp32Finite]; omega, by simp, ?_, by rw [fp32Man_pack, BitVec.toNat_ofNat, h2]; omega, fun _ => ?_⟩
    · rw [fixedMag, fp32Exp_pack, fp32Man_pack, BitVec.toNat_ofNat, BitVec.toNat_ofNat, h1, h2, if_neg (by omega),
        Nat.shiftLeft_eq, Nat.add_sub_cancel, Nat.add_sub_cancel' (by omega)]
    · rw [fp32Exp_pack, BitVec.toNat_ofNat, h1]
      omega

/-- A magnitude whose rounded form is below `2^277` (that is `2^128`) packs into a finite pattern of that magnitude. -/
theorem packMagnitude_spec {sgn : BitVec 1} {y : Nat} (hy : 0 < y) (h : roundedMag y < 2 ^ 277) :
    fp32Finite (packMagnitude sgn y) = true ∧ fp32Sign (packMagnitude sgn y) = sgn ∧
      fixedMag (packMagnitude sgn y) = roundedMag y ∧ fp32Man (packMagnitude sgn y) % 2 = roundedSig y % 2 ∧
      (2 ^ 23 ≤ y → 1 ≤ fp32Exp (packMagnitude sgn y) ∧ fp32Exp (packMagnitude sgn y) ≤ 254) := by
  obtain ⟨hle, hge⟩ := roundedSig_bounds hy
  have hk : roundedSig y * 2 ^ scaleExp y < 2 ^ 277 := h
  have hpos : 2 ^ 23 ≤ roundedSig y ∨ scaleExp y = 0 := by
    by_cases h0 : scaleExp y = 0
    · exact .inr h0
    · exact .inl (hge h0)
  have hkle : scaleExp y ≤ 253 := by
    rcases hpos with hp | hp
    · by_contra hc
      have : 2 ^ 23 * 2 ^ 254 ≤ roundedSig y * 2 ^ scaleExp y :=
        Nat.mul_le_mul hp (Nat.pow_le_pow_right (by norm_num) (by omega))
      rw [← pow_add] at this
      omega
    · omega
  unfold packMagnitude
  split_ifs with h24
  · have hk2 : scaleExp y + 1 ≤ 253 := by
      by_contra hc
      have h253 : scaleExp y = 253 := by omega
      rw [h24, h253, ← pow_add] at hk
      omega
    obtain ⟨a, b, c, d, e⟩ := packRounded_spec (sgn := sgn) (n := 2 ^ 23) (k := scaleExp y + 1) (by norm_num) hk2
      (fun _ => le_rfl)
    refine ⟨a, b, ?_, by rw [d, h24]; rfl, fun _ => e le_rfl⟩
    rw [c, roundedMag, h24]
    ring
  · obtain ⟨a, b, c, d, e⟩ := packRounded_spec (sgn := sgn) (n := roundedSig y) (k := scaleExp y) (by omega) hkle hge
    refine ⟨a, b, c, d, fun hy23 => e ?_⟩
    rcases hpos with hp | hp
    · exact hp
    · have : roundedSig y = y := by
        rw [roundedSig, hp]
        simpa using roundEven_mul y 0
      omega

/-- A magnitude whose rounded form reaches `2^277` packs into infinity. -/
theorem packMagnitude_overflow {sgn : BitVec 1} {y : Nat} (hy : 0 < y) (h : 2 ^ 277 ≤ roundedMag y) :
    packMagnitude sgn y = fp32Pack sgn 0xFF#8 0#23 := by
  obtain ⟨hle, -⟩ := roundedSig_bounds hy
  have hk : 2 ^ 277 ≤ roundedSig y * 2 ^ scaleExp y := h
  have h1 : 253 ≤ scaleExp y := by
    by_contra hc
    have : roundedSig y * 2 ^ scaleExp y ≤ 2 ^ 24 * 2 ^ 252 :=
      Nat.mul_le_mul hle (Nat.pow_le_pow_right (by norm_num) (by omega))
    rw [← pow_add] at this
    omega
  unfold packMagnitude
  split_ifs with h24
  · unfold packRounded
    rw [if_pos (by omega)]
  · have h2 : scaleExp y ≠ 253 := by
      intro hc
      rw [hc] at hk
      have : roundedSig y * 2 ^ 253 < 2 ^ 24 * 2 ^ 253 := Nat.mul_lt_mul_of_pos_right (by omega) (by positivity)
      rw [← pow_add] at this
      omega
    unfold packRounded
    rw [if_pos (by omega)]

/-- A nonzero finite sum whose rounded magnitude stays below `2^277` is that magnitude with the sum's sign. -/
theorem fadd32_spec {a b : Word} (ha : fp32Finite a = true) (hb : fp32Finite b = true)
    (hx : fixedVal a + fixedVal b ≠ 0) (h : roundedMag (fixedVal a + fixedVal b).natAbs < 2 ^ 277) :
    fp32Finite (fadd32 a b) = true ∧
      fixedVal (fadd32 a b) = (fixedVal a + fixedVal b).sign * roundedMag (fixedVal a + fixedVal b).natAbs ∧
      fp32Man (fadd32 a b) % 2 = roundedSig (fixedVal a + fixedVal b).natAbs % 2 ∧
      (2 ^ 23 ≤ (fixedVal a + fixedVal b).natAbs → 1 ≤ fp32Exp (fadd32 a b) ∧ fp32Exp (fadd32 a b) ≤ 254) := by
  have e : fadd32 a b = packMagnitude (if fixedVal a + fixedVal b < 0 then 1#1 else 0#1) (fixedVal a + fixedVal b).natAbs := by
    simp [fadd32, ha, hb, faddFinite, hx]
  rw [e]
  obtain ⟨p, q, r, s, t⟩ := packMagnitude_spec (sgn := if fixedVal a + fixedVal b < 0 then 1#1 else 0#1)
    (y := (fixedVal a + fixedVal b).natAbs) (by omega) h
  refine ⟨p, ?_, s, t⟩
  rw [fixedVal, q, r]
  generalize fixedVal a + fixedVal b = x at *
  rcases lt_or_gt_of_ne hx with hneg | hpos
  · simp [hneg, Int.sign_eq_neg_one_of_neg hneg]
  · simp [not_lt.mpr hpos.le, Int.sign_eq_one_of_pos hpos]

/-- A finite sum of zero is `+0.0` or `-0.0` (42_matmul.md R165). -/
theorem fadd32_zero {a b : Word} (ha : fp32Finite a = true) (hb : fp32Finite b = true) (hx : fixedVal a + fixedVal b = 0) :
    fadd32 a b = if a = 0x80000000#32 ∧ b = 0x80000000#32 then 0x80000000#32 else 0x00000000#32 := by
  simp [fadd32, ha, hb, faddFinite, hx]

/-- A finite sum whose rounded magnitude reaches `2^277` is the infinity of its sign. -/
theorem fadd32_overflow {a b : Word} (ha : fp32Finite a = true) (hb : fp32Finite b = true)
    (hx : fixedVal a + fixedVal b ≠ 0) (h : 2 ^ 277 ≤ roundedMag (fixedVal a + fixedVal b).natAbs) :
    fadd32 a b = fp32Pack (if fixedVal a + fixedVal b < 0 then 1#1 else 0#1) 0xFF#8 0#23 := by
  have e : fadd32 a b = packMagnitude (if fixedVal a + fixedVal b < 0 then 1#1 else 0#1) (fixedVal a + fixedVal b).natAbs := by
    simp [fadd32, ha, hb, faddFinite, hx]
  rw [e]
  exact packMagnitude_overflow (by omega) h

end Sys2Proof.Machine
end

