-- ==== Sys2Proof/Laws/Lmul.lean ====
section
/-! SUPPORT. The fields of an approximate product (41_lmul.md R143, R145), for every pair of bytes under a valid `ne`. -/

namespace Sys2Proof.Machine

theorem mantissaCarry_le (bx bY : Byte) (ne : Nat) : mantissaCarry bx bY ne ≤ 1 := by
  unfold mantissaCarry
  split_ifs <;> omega

/-- `E32` is a normal exponent field, and the product's last mantissa unit stays at or above `2^-61`, which is `2^88` units
of `2^-149` (42_matmul.md R166). -/
theorem productExp_bounds (bx bY : Byte) {ne : Nat} (h1 : 1 ≤ ne) (h6 : ne ≤ 6) :
    67 ≤ productExp bx bY ne ∧ productExp bx bY ne ≤ 192 ∧
      89 ≤ productExp bx bY ne + (23 - manWidth ne - mantissaCarry bx bY ne : ℕ) := by
  have hx := fp8Exp_le bx ne
  have hy := fp8Exp_le bY ne
  have hc := mantissaCarry_le bx bY ne
  unfold productExp decodeFp8
  dsimp only
  generalize mantissaCarry bx bY ne = c at *
  rcases ne_cases h1 h6 with rfl | rfl | rfl | rfl | rfl | rfl <;>
    simp [bias, expMax, manWidth] at * <;> split_ifs <;> omega

/-- `F32` fits the mantissa field. -/
theorem productMan_lt (bx bY : Byte) {ne : Nat} (h1 : 1 ≤ ne) (h6 : ne ≤ 6) : productMan bx bY ne < 2 ^ 23 := by
  have hx := fp8Man_le bx ne
  have hy := fp8Man_le bY ne
  unfold productMan mantissaCarry mantissaSum corrExp decodeFp8
  dsimp only
  generalize fp8Man bx ne = a at *
  generalize fp8Man bY ne = b at *
  rcases ne_cases h1 h6 with rfl | rfl | rfl | rfl | rfl | rfl <;>
    simp [manMax, manWidth, Nat.shiftLeft_eq] at * <;> split_ifs <;> simp <;> omega

@[simp] theorem fp32Sign_approxMultiply (bx bY : Byte) (ne : Nat) :
    fp32Sign (approxMultiply bx bY ne) = fp8Sign bx ^^^ fp8Sign bY := by
  simp [approxMultiply, decodeFp8]

/-- The exponent field of a product is `E32`. -/
theorem fp32Exp_approxMultiply (bx bY : Byte) {ne : Nat} (h1 : 1 ≤ ne) (h6 : ne ≤ 6) :
    (fp32Exp (approxMultiply bx bY ne) : ℤ) = productExp bx bY ne := by
  obtain ⟨hl, hu, -⟩ := productExp_bounds bx bY h1 h6
  rw [approxMultiply, fp32Exp_pack, BitVec.toNat_ofInt]
  omega

/-- The mantissa field of a product is `F32`. -/
theorem fp32Man_approxMultiply (bx bY : Byte) {ne : Nat} (h1 : 1 ≤ ne) (h6 : ne ≤ 6) :
    fp32Man (approxMultiply bx bY ne) = productMan bx bY ne := by
  have := productMan_lt bx bY h1 h6
  rw [approxMultiply, fp32Man_pack, BitVec.toNat_ofNat]
  omega

/-- A product as an integer of the unit `2^-149`: finite, a nonzero multiple of `2^88`, below `2^215`. -/
theorem fixedMag_approxMultiply (bx bY : Byte) {ne : Nat} (h1 : 1 ≤ ne) (h6 : ne ≤ 6) :
    fp32Finite (approxMultiply bx bY ne) = true ∧ 2 ^ 88 ∣ fixedMag (approxMultiply bx bY ne) ∧
      0 < fixedMag (approxMultiply bx bY ne) ∧ fixedMag (approxMultiply bx bY ne) < 2 ^ 215 := by
  obtain ⟨hl, hu, hd⟩ := productExp_bounds bx bY h1 h6
  have he := fp32Exp_approxMultiply bx bY h1 h6
  have hm := productMan_lt bx bY h1 h6
  have hdvd : 2 ^ (23 - manWidth ne - mantissaCarry bx bY ne) ∣ 2 ^ 23 + productMan bx bY ne := by
    refine Nat.dvd_add (pow_dvd_pow 2 (by omega)) ?_
    rw [productMan, Nat.shiftLeft_eq]
    exact Dvd.intro_left _ rfl
  have hmag : fixedMag (approxMultiply bx bY ne) =
      (2 ^ 23 + productMan bx bY ne) * 2 ^ (fp32Exp (approxMultiply bx bY ne) - 1) := by
    rw [fixedMag, fp32Man_approxMultiply bx bY h1 h6, if_neg (by omega), Nat.shiftLeft_eq]
  rw [← he] at hl hu hd
  rw [hmag]
  refine ⟨by simp [fp32Finite]; omega, ?_, by positivity, ?_⟩
  · have := Nat.mul_dvd_mul_right hdvd (2 ^ (fp32Exp (approxMultiply bx bY ne) - 1))
    rw [← pow_add] at this
    exact dvd_trans (pow_dvd_pow 2 (by omega)) this
  · calc (2 ^ 23 + productMan bx bY ne) * 2 ^ (fp32Exp (approxMultiply bx bY ne) - 1)
        < 2 ^ 24 * 2 ^ (fp32Exp (approxMultiply bx bY ne) - 1) := Nat.mul_lt_mul_of_pos_right (by omega) (by positivity)
      _ ≤ 2 ^ 24 * 2 ^ 191 := Nat.mul_le_mul_left _ (Nat.pow_le_pow_right (by norm_num) (by omega))
      _ = 2 ^ 215 := by norm_num

end Sys2Proof.Machine
end

