-- ==== Sys2Proof/Laws/PerInstr.lean ====
section
/-! SUPPORT. The family of statements made for every instruction: the two fields of its command word (30_encoding.md R70,
R71, R73). -/

namespace Sys2Proof.Laws.EncodedFields

/-- The command word of a well-formed instruction holds its `ne` in bits 7:4 and its row's `op` in bits 3:0. -/
def Statement (i : Instr) : Prop := i.WellFormed → neField (encodeWord i) = i.ne ∧ opField (encodeWord i) = opOf i

/-- The command word as a number, `(ne << 4) | op` (30_encoding.md R75). -/
theorem encodeWord_toNat {i : Instr} (h : i.WellFormed) (ho : opOf i < 16) : (encodeWord i).toNat = i.ne * 16 + opOf i := by
  have hn : i.ne < 16 := h
  rw [encodeWord, BitVec.toNat_append, ← Nat.shiftLeft_add_eq_or_of_lt (BitVec.isLt _), Nat.shiftLeft_eq]
  simp only [BitVec.toNat_ofNat]
  omega

theorem of_opOf {i : Instr} (ho : opOf i < 16) : Statement i := by
  intro h
  rw [neField, opField, encodeWord_toNat h ho]
  omega

theorem downcast (ne : Nat) : Statement (.downcast ne) := of_opOf (by simp [opOf])
theorem downcastMatrix (ne : Nat) : Statement (.downcastMatrix ne) := of_opOf (by simp [opOf])
theorem decode (ne : Nat) : Statement (.decode ne) := of_opOf (by simp [opOf])
theorem approxMultiply (ne : Nat) : Statement (.approxMultiply ne) := of_opOf (by simp [opOf])
theorem approxMatmul (ne : Nat) : Statement (.approxMatmul ne) := of_opOf (by simp [opOf])
theorem reserved5 (ne : Nat) : Statement (.reserved5 ne) := of_opOf (by simp [opOf])
theorem reserved6 (ne : Nat) : Statement (.reserved6 ne) := of_opOf (by simp [opOf])
theorem reserved7 (ne : Nat) : Statement (.reserved7 ne) := of_opOf (by simp [opOf])
theorem reserved8 (ne : Nat) : Statement (.reserved8 ne) := of_opOf (by simp [opOf])
theorem reserved9 (ne : Nat) : Statement (.reserved9 ne) := of_opOf (by simp [opOf])
theorem reservedA (ne : Nat) : Statement (.reservedA ne) := of_opOf (by simp [opOf])
theorem reservedB (ne : Nat) : Statement (.reservedB ne) := of_opOf (by simp [opOf])
theorem reservedC (ne : Nat) : Statement (.reservedC ne) := of_opOf (by simp [opOf])
theorem reservedD (ne : Nat) : Statement (.reservedD ne) := of_opOf (by simp [opOf])
theorem reservedE (ne : Nat) : Statement (.reservedE ne) := of_opOf (by simp [opOf])
theorem reservedF (ne : Nat) : Statement (.reservedF ne) := of_opOf (by simp [opOf])

end Sys2Proof.Laws.EncodedFields
end

