-- ==== Sys2Proof/Laws/Step.lean ====
section
/-! SUPPORT. What one step can do (10_state.md R12, R13): the next input decides, and each kind of input has one lemma. -/

namespace Sys2Proof.Machine

/-- The decoder on one byte (30_encoding.md R70). -/
theorem decode_single (c : Byte) : decode [c] = .ok (decodeWord c, []) := rfl

/-- With no input pending nothing happens. -/
theorem step_idle {s : State} (h : s.inputs = []) : step s = .next s := by
  simp [step, fetch, h]

/-- A pending input that is allowed is performed on the state that no longer lists it. -/
theorem fetch_perform {s : State} {a : Input} {rest : List Input} (h : s.inputs = a :: rest)
    (hb : statusBusy s.status = false ∨ allowedWhileBusy a = true) : fetch s = perform a { s with inputs := rest } := by
  rcases hb with hb | hb <;> simp [fetch, h, hb]

/-- An input that is not allowed while `BUSY` is 1 is refused (70_reset_and_hazards.md R212). -/
theorem step_busy {s : State} {a : Input} {rest : List Input} (h : s.inputs = a :: rest)
    (hb : statusBusy s.status = true) (ha : allowedWhileBusy a = false) : step s = .refused .hostAccessWhileBusy := by
  simp [step, fetch, h, hb, ha]

/-- A write of `CMD` runs the command word (10_state.md R14). -/
theorem step_command {s : State} {w : Nat} {rest : List Input} (h : s.inputs = .writeReg 0 w :: rest)
    (hb : statusBusy s.status = false) :
    step s = exec (decodeWord (BitVec.ofNat 8 w)) (startCommand (BitVec.ofNat 8 w) { s with inputs := rest }) := by
  simp [step, fetch_perform h (.inl hb), perform]

/-- A statement about the draw source says which values come next, and changes nothing else (30_encoding.md R76). -/
theorem step_rnd {s : State} {draws : List Word} {rest : List Input} (h : s.inputs = .rnd draws :: rest) :
    step s = .next (stateDraws draws { s with inputs := rest }) := by
  simp [step, fetch_perform h (.inr rfl), perform]

/-- Every step that answers a next state: nothing pending, a command, one access of the host, a statement about the draw
source, or a reset. -/
theorem step_cases {s t : State} (h : step s = .next t) :
    (s.inputs = [] ∧ t = s) ∨
    (∃ w rest, s.inputs = .writeReg 0 w :: rest ∧ statusBusy s.status = false ∧
      exec (decodeWord (BitVec.ofNat 8 w)) (startCommand (BitVec.ofNat 8 w) { s with inputs := rest }) = .next t) ∨
    (∃ reg value rest, s.inputs = .writeReg reg value :: rest ∧ reg ≠ 0 ∧
      writeRegister { s with inputs := rest } reg value = some t) ∨
    (∃ v rest, t = receive v { s with inputs := rest }) ∨
    (∃ index value rest, index < bufferSize s ∧
      (t = { s with inputs := rest, xf := s.xf.write index value } ∨
        t = { s with inputs := rest, yf := s.yf.write index value })) ∨
    (∃ draws rest, s.inputs = .rnd draws :: rest ∧ t = stateDraws draws { s with inputs := rest }) ∨
    (∃ rest, s.inputs = .reset :: rest ∧ t = resetCore { s with inputs := rest }) := by
  cases hi : s.inputs with
  | nil =>
    rw [step_idle hi] at h
    injection h with h
    exact .inl ⟨rfl, h.symm⟩
  | cons a rest =>
    right
    by_cases hb : statusBusy s.status = false ∨ allowedWhileBusy a = true
    swap
    · have hb' : statusBusy s.status = true ∧ allowedWhileBusy a = false := by simpa using hb
      rw [step_busy hi hb'.1 hb'.2] at h
      cases h
    · cases a with
      | writeReg reg value =>
        by_cases h0 : reg = 0
        · subst h0
          have hb' : statusBusy s.status = false := by simpa [allowedWhileBusy] using hb
          rw [step_command hi hb'] at h
          exact .inl ⟨value, rest, rfl, hb', h⟩
        · right; left
          refine ⟨reg, value, rest, rfl, h0, ?_⟩
          simp only [step, fetch_perform hi hb, perform, h0, if_false, hostWriteRegister] at h
          split at h
          · rename_i u hu
            injection h with h
            rw [hu, h]
          · cases h
      | readReg reg =>
        right; right; left
        simp only [step, fetch_perform hi hb, perform, hostReadRegister] at h
        split at h
        · injection h with h
          exact ⟨_, rest, h.symm⟩
        · cases h
      | writeBuf buf index value =>
        right; right; right; left
        simp only [step, fetch_perform hi hb, perform, hostWriteBuffer] at h
        split at h
        · rename_i hlt
          refine ⟨index, value, rest, hlt, ?_⟩
          cases buf <;> simp at h
          · exact .inl h.symm
          · exact .inr h.symm
        · cases h
      | readBuf buf index =>
        right; right; left
        simp only [step, fetch_perform hi hb, perform, hostReadBuffer] at h
        split at h
        · split at h
          · injection h with h
            exact ⟨_, rest, h.symm⟩
          · cases h
        · cases h
      | rnd draws =>
        right; right; right; right; left
        rw [step_rnd hi] at h
        injection h with h
        exact ⟨draws, rest, rfl, h.symm⟩
      | reset =>
        right; right; right; right; right
        simp only [step, fetch_perform hi hb, perform] at h
        injection h with h
        exact ⟨rest, rfl, h.symm⟩

/-- What a write of a register other than `CMD` can do: nothing, or one host-writable register takes the low bits
(10_state.md R13). -/
theorem writeRegister_cases {s t : State} {reg value : Nat} (h : writeRegister s reg value = some t) :
    t = s ∨ t = { s with opa := BitVec.ofNat 32 value } ∨ t = { s with opb := BitVec.ofNat 8 value } ∨
      t = { s with xrows := dimBits s value } ∨ t = { s with xcols := dimBits s value } ∨
      t = { s with yrows := dimBits s value } ∨ t = { s with ycols := dimBits s value } := by
  unfold writeRegister at h
  split at h <;> simp at h <;> simp [← h]

theorem dimBits_lt (s : State) (value : Nat) : dimBits s value < 2 ^ s.params.dimw := Nat.mod_lt _ (by positivity)

end Sys2Proof.Machine
end

