-- ==== Sys2Proof/Tests/Slice0.lean ====
section
/-! SUPPORT. Tests of one step each, with the results that spec/95_test_vectors.md prints (or another rule, where named), and
for every obligation that has hypotheses a witness that meets them together. -/

namespace Sys2Proof.Machine.Tests

/-! ### Helpers -/

/-- The next state of an outcome. -/
def nextOf (o : Host.Outcome State Fault Refusal) : Option State :=
  match o with
  | .next t => some t
  | .fault _ => none
  | .refused _ => none

/-- The fault of an outcome. -/
def faultOf (o : Host.Outcome State Fault Refusal) : Option Fault :=
  match o with
  | .next _ => none
  | .fault f => some f
  | .refused _ => none

/-- The refusal of an outcome. -/
def refusalOf (o : Host.Outcome State Fault Refusal) : Option Refusal :=
  match o with
  | .next _ => none
  | .fault _ => none
  | .refused r => some r

theorem eq_next_of_nextOf {o : Host.Outcome State Fault Refusal} (h : (nextOf o).isSome = true) : ∃ t, o = .next t := by
  cases o with
  | next t => exact ⟨t, rfl⟩
  | fault f => simp [nextOf] at h
  | refused r => simp [nextOf] at h

/-- What a pattern denotes, from its integer of the unit `2^-149`. -/
theorem val32_of_fixed {v : Word} {z : ℤ} (h : fixedVal v = z) : val32 v = (z : ℚ) / 2 ^ 149 := by
  rw [val32_eq_fixed, h]

/-- A state for the scalar commands: `OPA` = 1.5, `OPB` = 0x40, one queued draw. -/
def scalar (opa : Word) (opb : Byte) (d : Word) : State :=
  { State.reset with opa := opa, opb := opb, rnd := { queue := [d], taken := 0 } }

/-- A state for the matrix commands: shapes, the two input buffers from index 0, the queued draws. -/
def matrices (xr xc : Nat) (x : List Word) (yr yc : Nat) (y : List Word) (ds : List Word) : State :=
  { State.reset with
    xrows := xr
    xcols := xc
    yrows := yr
    ycols := yc
    xf := x.zipIdx.map (fun e => (e.2, e.1))
    yf := y.zipIdx.map (fun e => (e.2, e.1))
    rnd := { queue := ds, taken := 0 } }

/-- Program P2 of 95_test_vectors.md before its command: 2.0 times 2.0. -/
def oneByOne : State := matrices 1 1 [0x40000000#32] 1 1 [0x40000000#32] [0x12345678#32, 0x9ABCDEF0#32]

/-- Reset with pending accesses of the host. -/
def pending (l : List Input) : State := { State.reset with inputs := l }

/-- An element of each buffer written, at index 65535, the last one under `DIMW` = 8. -/
def written : State :=
  { State.reset with
    xf := [(65535, 0x3FC00000#32)]
    yf := [(65535, 0x40000000#32)]
    xq := [(65535, 0x3C#8)]
    yq := [(65535, 0x40#8)]
    zf := [(65535, 0x40900000#32)] }

/-! ### Well-formedness and decoding -/

/-- `ne` has four bits (30_encoding.md R67). -/
theorem test_illFormed_ne16 : ¬(Instr.downcast 16).WellFormed := by decide

theorem test_wellFormed_ne15 : (Instr.downcast 15).WellFormed := by decide

/-- Each row's word written out, `ne` = 4 (30_encoding.md R71, R75). -/
theorem test_decode_words_defined :
    decodeWord 0b01000000#8 = .downcast 4 ∧ decodeWord 0b01000001#8 = .downcastMatrix 4 ∧
      decodeWord 0b01000010#8 = .decode 4 ∧ decodeWord 0b01000011#8 = .approxMultiply 4 ∧
      decodeWord 0b01000100#8 = .approxMatmul 4 := by decide

/-- The reserved rows, with `ne` 0 to 10 (30_encoding.md R73). -/
theorem test_decode_words_reserved :
    decodeWord 0b00000101#8 = .reserved5 0 ∧ decodeWord 0b00010110#8 = .reserved6 1 ∧
      decodeWord 0b00100111#8 = .reserved7 2 ∧ decodeWord 0b00111000#8 = .reserved8 3 ∧
      decodeWord 0b01001001#8 = .reserved9 4 ∧ decodeWord 0b01011010#8 = .reservedA 5 ∧
      decodeWord 0b01101011#8 = .reservedB 6 ∧ decodeWord 0b01111100#8 = .reservedC 7 ∧
      decodeWord 0b10001101#8 = .reservedD 8 ∧ decodeWord 0b10011110#8 = .reservedE 9 ∧
      decodeWord 0b10101111#8 = .reservedF 10 := by decide

/-- No byte, no word. -/
theorem test_decode_empty : decode [] = .error .noCommandByte := by decide

/-- 30_encoding.md R75: `APPROX_MATMUL ne=4` is 0x44, and how a word is written. -/
theorem test_assemble : assemble "APPROX_MATMUL" 4 = some 0x44#8 ∧ assemble "downcastMatrix" 4 = some 0x41#8 ∧
    commandText 0x72#8 = "DECODE ne=7" ∧ commandText 0x3A#8 = ".cmd 0x3A" := by decide +kernel

/-- 30_encoding.md R76: what `LDX` expands to (program P2 of 95_test_vectors.md). -/
theorem test_ldx : (ScriptLine.ldx 1 1 [0x40000000#32]).accesses =
    [.writeReg 9 1, .writeReg 10 1, .writeBuf .xf 0 0x40000000#32] := by decide

/-- 30_encoding.md R76: the values of an `RND` line are for the following command, not for the one before it nor for a later
one. -/
theorem test_rnd_following_command :
    scriptInputs [] [.command 0x40#8, .rnd [5#32, 6#32], .rd .RES none, .command 0x40#8, .wr .CMD 0x40] =
      [.rnd [], .writeReg 0 0x40, .readReg 4, .rnd [5#32, 6#32], .writeReg 0 0x40, .rnd [], .writeReg 0 0x40] := by decide

/-- 30_encoding.md R76: an `RND` line replaces what was known of the port and changes nothing else. -/
theorem test_rnd_step : nextOf (step { oneByOne with inputs := [.rnd [5#32]] }) =
    some { oneByOne with rnd := { queue := [5#32], taken := 0 } } := by decide

/-- 30_encoding.md R76: `EXPECT ERR=DimensionMismatch` expects 0x03 (program P6), and a value read otherwise does not meet it. -/
theorem test_expect : (ScriptLine.expectErr .dimensionMismatch).expectations = [some 3] ∧
    meetsExpectations [some 3, none] [3, 7] = true ∧ meetsExpectations [some 3] [1] = false ∧
    (ScriptLine.ldx 2 1 [7#32]).wellFormed = false := by decide

/-! ### The instructions -/

/-- Section 2.1, "The exact threshold of the draw": 1.3 under `ne` = 4, the last draw that rounds up. -/
theorem test_downcast_rounds_up : (nextOf (exec (.downcast 4) (scalar 0x3FA66666#32 0#8 0x66665FFF#32))).map
    (fun t => (t.res, t.status, t.rnd.queue)) = some (0x0000003B#32, 0x00#8, []) := by decide

/-- Section 2.1: the subnormal path under `ne` = 1 (1.7 with the high draw). -/
theorem test_downcast_subnormal : downcast 0x3FD9999A#32 1 0xFFFFFFFF#32 = 0x36#8 := by decide

/-- Section 2.2: 1.5 and -2.0 under `ne` = 4. -/
theorem test_downcastMatrix : (nextOf (exec (.downcastMatrix 4)
    (matrices 1 2 [0x3FC00000#32, 0xC0000000#32] 0 0 [] [0#32, 0#32]))).map (fun t => (t.xq, t.status)) =
      some ([(0, 0x3C#8), (1, 0xC0#8)], 0x00#8) := by decide

/-- Program P7: reading what was never written faults. -/
theorem test_downcastMatrix_unwritten : faultOf (exec (.downcastMatrix 4)
    (matrices 1 2 [0x3FC00000#32] 0 0 [] [0#32, 0#32])) = some (.unwrittenElement .xf 1) := by decide

/-- Section 2.3: the byte 0x08 under `ne` = 4, with upper bits of `OPA` that are ignored. -/
theorem test_decode_negative_exponent : (nextOf (exec (.decode 4) (scalar 0xDEADBE08#32 0#8 0#32))).map
    (fun t => (t.dsign, t.dexp, t.dfrac, t.dsig)) = some (0#1, 0xFA#8, 0#6, 64#7) := by decide

/-- Section 2.3: the subnormal byte 0x07 under `ne` = 4 keeps `f`. -/
theorem test_decode_subnormal : (nextOf (exec (.decode 4) (scalar 0x00000007#32 0#8 0#32))).map
    (fun t => (t.dsign, t.dexp, t.dfrac, t.dsig)) = some (0#1, 0x00#8, 56#6, 0#7) := by decide

/-- Section 2.4: 1.875 times 1.875 under `ne` = 4, with a carry. -/
theorem test_approxMultiply_carry : (nextOf (exec (.approxMultiply 4) (scalar 0x0000003F#32 0x3F#8 0#32))).map
    (fun t => t.res) = some 0x40380000#32 := by decide

/-- Section 2.4: -0 times 2.0 is not zero; the smallest product. -/
theorem test_approxMultiply_zero :
    approxMultiply 0x80#8 0x40#8 4 = 0xC0100000#32 ∧ approxMultiply 0x02#8 0x02#8 6 = 0x21C00000#32 := by decide

/-- Program P2. -/
theorem test_approxMatmul : (nextOf (exec (.approxMatmul 4) oneByOne)).map
    (fun t => (t.xq.read 0, t.yq.read 0, t.zf.read 0, t.zrows, t.zcols)) =
      some (some 0x40#8, some 0x40#8, some 0x40900000#32, 1, 1) := by decide +kernel

/-- Program P6: the format is tested before the shapes. -/
theorem test_approxMatmul_priority : (nextOf (exec (.approxMatmul 9) (matrices 2 3 [] 4 2 [] []))).map
    (fun t => t.status) = some 0x01#8 := by decide

/-- Section 2.5: a tie, and a cancellation. -/
theorem test_fadd32 : fadd32 0x4BC00000#32 0x40400000#32 = 0x4BC00002#32 ∧
    fadd32 0x3F900000#32 0xBF900000#32 = 0x00000000#32 := by decide +kernel

/-- Section 2.7: a reserved word written to `CMD`. -/
theorem test_reserved : (nextOf (step (pending [.writeReg 0 0xFF]))).map (fun t => (t.cmd, t.status)) =
    some (0xFF#8, 0x04#8) := by decide

/-- A command word as the first instruction after reset: `DOWNCAST ne=0` (section 2.7). -/
theorem test_withFetchWord : (nextOf (step (State.reset.withFetchWord 8 0x00))).map (fun t => (t.cmd, t.status)) =
    some (0x00#8, 0x01#8) := by decide

/-- 10_state.md R13: a value wider than the register keeps its low bits; a write of a read-only register is ignored. -/
theorem test_writeRegister :
    (nextOf (step (pending [.writeReg 9 0x102]))).map (fun t => t.xrows) = some 2 ∧
      (nextOf (step (pending [.writeReg 4 7]))).map (fun t => t.res) = some 0#32 := by decide

/-! ### Witnesses: encoding, host, reset -/

/-- DecodeInvertsEncode, at the largest `ne`. -/
theorem witness_decodeInvertsEncode : (Instr.approxMatmul 15).WellFormed ∧ (Instr.reservedF 0).WellFormed := by decide

/-- WrittenCommandsAssemble: the bound of `ne`, and a word with a mnemonic. -/
theorem witness_writtenCommandsAssemble : 15 < 16 ∧ mnemonic (decodeWord 0xF4#8) = some "APPROX_MATMUL" := by decide

/-- StepRunsTheCommandWord. -/
theorem witness_stepRunsTheCommandWord : (pending [.writeReg 0 0x44]).inputs = .writeReg 0 0x44 :: [] ∧
    statusBusy (pending [.writeReg 0 0x44]).status = false ∧
    decode [BitVec.ofNat 8 0x44] = .ok (.approxMatmul 4, []) := by decide

/-- ReservedWordOnlySetsErr, at both ends of the reserved `op` values. -/
theorem witness_reservedWordOnlySetsErr :
    ((pending [.writeReg 0 0x05]).inputs = .writeReg 0 0x05 :: [] ∧ statusBusy (pending [.writeReg 0 0x05]).status = false ∧
      5 ≤ 0x05 % 16) ∧
    ((pending [.writeReg 0 0xFF]).inputs = .writeReg 0 0xFF :: [] ∧ statusBusy (pending [.writeReg 0 0xFF]).status = false ∧
      5 ≤ 0xFF % 16) := by decide

/-- ReservedRowsRaiseIllegalCommand, every reserved row. -/
theorem witness_reservedRowsRaiseIllegalCommand : ∀ i ∈ [Instr.reserved5 0, .reserved6 1, .reserved7 2, .reserved8 3,
    .reserved9 4, .reservedA 5, .reservedB 6, .reservedC 7, .reservedD 8, .reservedE 9, .reservedF 15],
    i.isReserved = true := by decide

/-- HostReadsRegister, the first and the last register. -/
theorem witness_hostReadsRegister : ∀ reg ∈ [0, 14],
    (pending [.readReg reg]).inputs = .readReg reg :: [] ∧ statusBusy (pending [.readReg reg]).status = false ∧
      [State.reset.cmd.toNat, State.reset.status.toNat, State.reset.opa.toNat, State.reset.opb.toNat,
        State.reset.res.toNat, State.reset.dsign.toNat, State.reset.dexp.toNat, State.reset.dfrac.toNat,
        State.reset.dsig.toNat, State.reset.xrows, State.reset.xcols, State.reset.yrows, State.reset.ycols,
        State.reset.zrows, State.reset.zcols][reg]? = some 0 := by decide

/-- HostWritesRegister, the first and the last register and each host-writable one. -/
theorem witness_hostWritesRegister : ∀ reg ∈ [1, 2, 3, 9, 10, 11, 12, 14],
    (pending [.writeReg reg 5]).inputs = .writeReg reg 5 :: [] ∧ statusBusy (pending [.writeReg reg 5]).status = false ∧
      1 ≤ reg ∧ reg ≤ 14 := by decide

/-- HostWritesElement, both buffers at the first and the last index. -/
theorem witness_hostWritesElement : ∀ index ∈ [0, 65535], ∀ buf ∈ [BufferId.xf, BufferId.yf],
    (pending [.writeBuf buf index 7#32]).inputs = .writeBuf buf index 7#32 :: [] ∧
      statusBusy (pending [.writeBuf buf index 7#32]).status = false ∧
      index < 2 ^ (2 * (pending [.writeBuf buf index 7#32]).params.dimw) := by decide +kernel

/-- HostReadsElement, each buffer at the last index. -/
theorem witness_hostReadsElement :
    (∀ buf ∈ [BufferId.xf, .yf, .xq, .yq, .zf],
      ({ written with inputs := [.readBuf buf 65535] } : State).inputs = .readBuf buf 65535 :: []) ∧
    statusBusy written.status = false ∧ 65535 < 2 ^ (2 * written.params.dimw) ∧
    written.xf.read 65535 = some 0x3FC00000#32 ∧ written.yf.read 65535 = some 0x40000000#32 ∧
    written.xq.read 65535 = some 0x3C#8 ∧ written.yq.read 65535 = some 0x40#8 ∧
    written.zf.read 65535 = some 0x40900000#32 := by decide +kernel

/-- HostAccessesWithoutMeaningAreRefused, each clause at its boundary. -/
theorem witness_hostAccessesWithoutMeaningAreRefused :
    statusBusy (pending [.writeReg 15 0]).status = false ∧ 15 ≤ 15 ∧
    (pending [.writeReg 15 0]).inputs = .writeReg 15 0 :: [] ∧ (pending [.readReg 15]).inputs = .readReg 15 :: [] ∧
    2 ^ (2 * (pending []).params.dimw) ≤ 65536 ∧
    (pending [.writeBuf .zf 65536 0#32]).inputs = .writeBuf .zf 65536 0#32 :: [] ∧
    (pending [.readBuf .xf 65536]).inputs = .readBuf .xf 65536 :: [] ∧
    65535 < 2 ^ (2 * (pending [.readBuf .xf 65535]).params.dimw) ∧
    readBuffer (pending [.readBuf .xf 65535]) .xf 65535 = none ∧
    (pending [.readBuf .xf 65535]).inputs = .readBuf .xf 65535 :: [] ∧
    ∀ buf ∈ [BufferId.xq, .yq, .zf], (buf = .xq ∨ buf = .yq ∨ buf = .zf) ∧
      ∀ index ∈ [0, 65535], index < 2 ^ (2 * (pending [.writeBuf buf index 7#32]).params.dimw) ∧
        (pending [.writeBuf buf index 7#32]).inputs = .writeBuf buf index 7#32 :: [] := by decide +kernel

/-- What the clauses of HostAccessesWithoutMeaningAreRefused answer there (93_implementation_defined.md U5, U9). -/
theorem test_refused_accesses :
    refusalOf (step (pending [.readReg 15])) = some (.noSuchRegister 15) ∧
      refusalOf (step (pending [.readBuf .xf 65536])) = some (.noSuchElement .xf 65536) ∧
      refusalOf (step (pending [.readBuf .xf 65535])) = some (.unwrittenHostRead .xf 65535) ∧
      refusalOf (step (pending [.writeBuf .xq 0 7#32])) = some (.bufferNotHostWritable .xq) := by decide +kernel

/-- OnlyStatusMayBeReadWhileBusy, both clauses. -/
theorem witness_onlyStatusMayBeReadWhileBusy : (∀ ds, Input.writeReg 0 0x40 ≠ .rnd ds) ∧
    statusBusy ({ pending [.readReg 1] with status := 0x80#8 } : State).status = true ∧
    ({ pending [.readReg 1] with status := 0x80#8 } : State).inputs = .readReg 1 :: [] ∧
    Input.writeReg 0 0x40 ≠ .readReg 1 ∧ Input.writeReg 0 0x40 ≠ .reset ∧
    ({ pending [.writeReg 0 0x40] with status := 0x80#8 } : State).inputs = .writeReg 0 0x40 :: [] := by
  refine ⟨by simp, by decide⟩

/-- ResetInputResetsTheCore. -/
theorem witness_resetInputResetsTheCore : (pending [.reset]).inputs = .reset :: [] := by decide

/-! ### Witnesses: invariants and the commands' frames -/

/-- A state with elements in every buffer that meets the invariant. -/
theorem written_inv : written.Inv where
  dims := by simp [DimsFit, written, State.reset, Config.referenceParams]
  canonical := by simp [Memory.wf, Buffer.wf, written]
  within := by simp [BuffersWithin, Buffer.within, bufferSize, written, State.reset, Config.referenceParams]
  status := by simp [StatusLegal, written, State.reset]
  decodeRegs := by simp [DecodeRegsLegal, written, State.reset]

/-- StepKeepsTheInvariant: a step from a state with written buffers, which a command follows. -/
theorem witness_stepKeepsTheInvariant : ∃ s t : State, s.Inv ∧ step s = .next t := by
  refine ⟨{ written with inputs := [.writeReg 0 0x42] }, ?_⟩
  obtain ⟨t, ht⟩ := eq_next_of_nextOf (o := step { written with inputs := [.writeReg 0 0x42] }) (by decide)
  exact ⟨t, ⟨written_inv.dims, written_inv.canonical, written_inv.within, written_inv.status, written_inv.decodeRegs⟩, ht⟩

/-- StepKeepsResultsNormal: a matrix product into a buffer that holds 4.5. -/
theorem witness_stepKeepsResultsNormal : ∃ s t : State, ResultsNormal s ∧ step s = .next t := by
  refine ⟨{ oneByOne with zf := [(3, 0x40900000#32)], inputs := [.writeReg 0 0x44] }, ?_⟩
  obtain ⟨t, ht⟩ := eq_next_of_nextOf
    (o := step { oneByOne with zf := [(3, 0x40900000#32)], inputs := [.writeReg 0 0x44] }) (by decide +kernel)
  refine ⟨t, fun e he => .inr ?_, ht⟩
  obtain rfl : e = (3, 0x40900000#32) := by simpa using he
  decide

/-- FirstErrorIsReportedAlone, each error in the order of 60_exceptions.md R187. -/
theorem witness_firstErrorIsReportedAlone :
    firstError (.reservedA 9) (matrices 0 1 [] 0 1 [] []) = some 4 ∧
    firstError (.approxMatmul 9) (matrices 0 1 [] 0 1 [] []) = some 2 ∧
    firstError (.approxMatmul 9) (matrices 2 3 [] 4 2 [] []) = some 1 ∧
    firstError (.approxMatmul 4) (matrices 2 3 [] 0 2 [] []) = some 2 ∧
    firstError (.approxMatmul 4) (matrices 2 3 [] 4 2 [] []) = some 3 ∧
    firstError (.downcast 0) State.reset = some 1 ∧ firstError (.decode 7) State.reset = some 1 ∧
    firstError (.approxMultiply 15) State.reset = some 1 ∧ firstError (.downcastMatrix 7) State.reset = some 2 := by decide

/-- SuccessClearsStatus: after an error the code does not stick. -/
theorem witness_successClearsStatus : ∃ t, firstError (.downcast 4) { scalar 0#32 0#8 0#32 with status := 0x03#8 } = none ∧
    exec (.downcast 4) { scalar 0#32 0#8 0#32 with status := 0x03#8 } = .next t := by
  obtain ⟨t, ht⟩ := eq_next_of_nextOf (o := exec (.downcast 4) { scalar 0#32 0#8 0#32 with status := 0x03#8 }) (by decide)
  exact ⟨t, by decide, ht⟩

/-- CommandsOnWrittenInputsEnd. -/
theorem witness_commandsOnWrittenInputsEnd : InputsWritten (.approxMatmul 4) oneByOne := by
  constructor <;> intro k hk <;> exact ⟨0x40000000#32, by
    obtain rfl : k = 0 := by
      simp [oneByOne, matrices] at hk
      exact hk
    decide⟩

/-- CommandsLeaveTheirOperands, CommandsTakeTheirDraws: every defined command answers a next state. -/
theorem witness_commandsAnswer : ∀ i ∈ [Instr.downcast 4, .downcastMatrix 4, .decode 4, .approxMultiply 4, .approxMatmul 4],
    ∃ t, exec i oneByOne = .next t ∧ t.status = 0x00#8 := by
  have h : ∀ i ∈ [Instr.downcast 4, .downcastMatrix 4, .decode 4, .approxMultiply 4, .approxMatmul 4],
      (nextOf (exec i oneByOne)).map (fun t => t.status) = some 0x00#8 := by decide +kernel
  intro i hi
  have := h i hi
  cases he : exec i oneByOne with
  | next t => exact ⟨t, rfl, by simpa [nextOf, he] using this⟩
  | fault f => simp [nextOf, he] at this
  | refused r => simp [nextOf, he] at this

/-- ResIsWrittenByItsTwoCommandsOnly: each clause, success of the two commands, a failure, another command. -/
theorem witness_resIsWrittenByItsTwoCommandsOnly :
    (nextOf (exec (.downcast 4) oneByOne)).map (fun t => t.status) = some 0x00#8 ∧
    (nextOf (exec (.approxMultiply 4) oneByOne)).map (fun t => t.status) = some 0x00#8 ∧
    (nextOf (exec (.downcast 7) oneByOne)).map (fun t => t.status) = some 0x01#8 ∧
    ((∀ ne, Instr.decode 4 ≠ .downcast ne) ∧ ∀ ne, Instr.decode 4 ≠ .approxMultiply ne) ∧
    (nextOf (exec (.decode 4) oneByOne)).isSome = true := by
  refine ⟨by decide, by decide, by decide, ⟨by simp, by simp⟩, by decide⟩

/-- DecodeRegsAreWrittenByDecodeOnly: a `DECODE` that changes a register, as a command and as a step, and a reset that does. -/
theorem witness_decodeRegsAreWrittenByDecodeOnly :
    (nextOf (exec (.decode 4) (scalar 0x0000003C#32 0#8 0#32))).map (fun t => decide (t.dsig ≠ State.reset.dsig)) =
      some true ∧
    (nextOf (step { scalar 0x0000003C#32 0#8 0#32 with inputs := [.writeReg 0 0x42] })).map
      (fun t => decide (t.dsig ≠ State.reset.dsig)) = some true ∧
    (nextOf (step { State.reset with dsig := 64#7, inputs := [.reset] })).map (fun t => decide (t.dsig ≠ 64#7)) =
      some true := by decide

/-- ResultShapeIsWrittenByMatmulOnly: a product changes the shape, and so does a reset after it. -/
theorem witness_resultShapeIsWrittenByMatmulOnly :
    (nextOf (exec (.approxMatmul 4) oneByOne)).map (fun t => t.status) = some 0x00#8 ∧
    (nextOf (step { oneByOne with inputs := [.writeReg 0 0x44] })).map (fun t => decide (t.zrows ≠ oneByOne.zrows)) =
      some true ∧
    (nextOf (step { oneByOne with zrows := 1, inputs := [.reset] })).map (fun t => decide (t.zrows ≠ 1)) = some true := by
  decide +kernel

/-- QuantizedBuffersAreWrittenByMatrixCommandsOnly: both clauses. -/
theorem witness_quantizedBuffersAreWrittenByMatrixCommandsOnly :
    (nextOf (exec (.downcastMatrix 4) oneByOne)).map (fun t => decide (t.xq ≠ oneByOne.xq)) = some true ∧
    (nextOf (exec (.approxMatmul 4) oneByOne)).map (fun t => decide (t.yq ≠ oneByOne.yq ∨ t.zf ≠ oneByOne.zf)) =
      some true := by
  decide +kernel

/-- QuantizedBuffersAreWrittenByMatrixCommandsOnly over steps: both clauses, with no reset pending. -/
theorem witness_quantizedBuffersAreWrittenByMatrixCommandsOnly_step :
    (¬∃ rest, ({ oneByOne with inputs := [.writeReg 0 0x41] } : State).inputs = .reset :: rest) ∧
    (¬∃ rest, ({ oneByOne with inputs := [.writeReg 0 0x44] } : State).inputs = .reset :: rest) ∧
    (nextOf (step { oneByOne with inputs := [.writeReg 0 0x41] })).map (fun t => decide (t.xq ≠ oneByOne.xq)) = some true ∧
    (nextOf (step { oneByOne with inputs := [.writeReg 0 0x44] })).map
      (fun t => decide (t.yq ≠ oneByOne.yq ∨ t.zf ≠ oneByOne.zf)) = some true :=
  ⟨by simp, by simp, by decide +kernel, by decide +kernel⟩

/-- ReplayedDrawsReplayTheResult: a port with another count and a longer queue. -/
theorem witness_replayedDrawsReplayTheResult : ∀ n < drawsTaken (.approxMatmul 4) oneByOne,
    drawValue { queue := [0x12345678#32, 0x9ABCDEF0#32, 7#32], taken := 5 } n = drawValue oneByOne.rnd n := by
  intro n hn
  have : n < 2 := by simpa [drawsTaken, oneByOne, matrices] using hn
  rcases (by omega : n = 0 ∨ n = 1) with rfl | rfl <;> rfl

/-! ### Witnesses: the quantizer and the L-Mul unit -/

/-- The range of `ne` at both ends: DowncastIsTheNineSteps, ClampChangesNothing, CarryNeverFires,
RoundsUpBelowTheDiscardedFraction, DowncastKeepsTheSign, DowncastCompletes, DecodeCompletes, DecodedTupleRanges,
ApproxMultiplyCompletes, ProductIsExact, ProductIsNormal, PartialSumsStayNormal have no other hypothesis. -/
theorem witness_ne_range : ∀ ne ∈ [1, 6], 1 ≤ ne ∧ ne ≤ 6 := by decide

/-- ClampChangesNothing: inputs on each path under `ne` = 4 (95_test_vectors.md section 2.1, edges of the format). -/
theorem witness_clampChangesNothing : quantPath 0x3C7FFFFF#32 4 = .subnormal ∧ quantPath 0x3C800000#32 4 = .inRange ∧
    quantPath 0x43FFFFFF#32 4 = .inRange ∧ quantPath 0x44000000#32 4 = .overflow := by decide

/-- CountOfDrawsThatRoundUp: 1.3 under `ne` = 4. -/
theorem witness_countOfDrawsThatRoundUp : 1 ≤ 4 ∧ 4 ≤ 6 ∧ 0x266666 / 2 ^ (16 + 4) ≠ 2 ^ (7 - 4) - 1 := by decide

/-- ExponentFieldZeroIsTheSubnormalPath: the clause for `ne >= 4` and the clause for zeros. -/
theorem witness_exponentFieldZeroIsTheSubnormalPath :
    (1 ≤ 4 ∧ 4 ≤ 6 ∧ quantPath 0x3C7FFFFF#32 4 = .subnormal ∧ 4 ≤ 4) ∧ (0x80000000#32).toNat % 2 ^ 31 = 0 := by decide

/-- HowTheDrawMatters: nothing discarded (1.5), the mantissa at its maximum (1.99), two draws with the same top bits, and an
input that can round up (1.3), under `ne` = 4. -/
theorem witness_howTheDrawMatters : 1 ≤ 4 ∧ 4 ≤ 6 ∧ workMantissa 0x3FC00000#32 4 % 2 ^ (16 + 4) = 0 ∧
    workMantissa 0x3FFEB852#32 4 / 2 ^ (16 + 4) = 2 ^ (7 - 4) - 1 ∧
    (0x66665000#32).toNat / 2 ^ (16 - 4) = (0x66665FFF#32).toNat / 2 ^ (16 - 4) ∧
    workMantissa 0x3FA66666#32 4 % 2 ^ (16 + 4) ≠ 0 ∧
    workMantissa 0x3FA66666#32 4 / 2 ^ (16 + 4) ≠ 2 ^ (7 - 4) - 1 := by decide

/-- DowncastOfEachInputClass: a zero, `e8` = 104 on the subnormal path, the last value of that path, an exactly representable
input (480.0), the first value in range, the first value on the overflow path (512.0), an infinity. -/
theorem witness_downcastOfEachInputClass : 1 ≤ 4 ∧ 4 ≤ 6 ∧ fp32Exp 0x007FFFFF#32 = 0 ∧
    (quantPath 0x34000000#32 4 = .subnormal ∧ fp32Exp 0x34000000#32 ≤ 104) ∧
    quantPath 0x3C7FFFFF#32 4 = .subnormal ∧
    (quantPath 0x43F00000#32 4 = .inRange ∧ fp32Man 0x43F00000#32 % 2 ^ (16 + 4) = 0) ∧
    quantPath 0x3C800000#32 4 = .inRange ∧
    quantPath 0x44000000#32 4 = .overflow ∧ fp32Exp 0x7F800000#32 = 255 := by decide

/-- InRangeRoundTripIsWithinOneStep: the ends of the range under `ne` = 4. -/
theorem witness_inRangeRoundTripIsWithinOneStep : 1 ≤ 4 ∧ 4 ≤ 6 ∧ quantPath 0x3C800000#32 4 = .inRange ∧
    quantPath 0x43FFFFFF#32 4 = .inRange := by decide

/-- DrawsComeFromThePortInOrder: a queued value. -/
theorem witness_drawsComeFromThePortInOrder : ([5#32, 6#32] : List Word)[1]? = some 6#32 := by decide

/-- DowncastMatrixCompletes. -/
theorem witness_downcastMatrixCompletes : 1 ≤ 4 ∧ 4 ≤ 6 ∧ oneByOne.xrows ≠ 0 ∧ oneByOne.xcols ≠ 0 ∧
    ∀ k < oneByOne.xrows * oneByOne.xcols, oneByOne.xf.read k = some ((fun _ => 0x40000000#32) k) := by decide

/-- UnwrittenInputFaults: the second element of X missing for both commands; X written and the first of Y missing. -/
theorem witness_unwrittenInputFaults :
    (firstError (.downcastMatrix 4) (matrices 1 2 [7#32] 2 1 [] []) = none ∧
      firstError (.approxMatmul 4) (matrices 1 2 [7#32] 2 1 [] []) = none ∧ 1 < 1 * 2 ∧
      WrittenUpTo (matrices 1 2 [7#32] 2 1 [] []).xf 1 ∧ (matrices 1 2 [7#32] 2 1 [] []).xf.read 1 = none) ∧
    (firstError (.approxMatmul 4) (matrices 1 1 [7#32] 1 1 [] []) = none ∧
      WrittenUpTo (matrices 1 1 [7#32] 1 1 [] []).xf (1 * 1) ∧ 0 < 1 * 1 ∧
      WrittenUpTo (matrices 1 1 [7#32] 1 1 [] []).yf 0 ∧ (matrices 1 1 [7#32] 1 1 [] []).yf.read 0 = none) := by
  refine ⟨⟨by decide, by decide, by decide, fun k hk => ⟨7#32, ?_⟩, by decide⟩,
    by decide, fun k hk => ⟨7#32, ?_⟩, by decide, fun k hk => absurd hk (by omega), by decide⟩
  · obtain rfl : k = 0 := by omega
    decide
  · obtain rfl : k = 0 := by omega
    decide

/-- ReconstructedValueOfEachByte: a byte of each clause under `ne` = 4. -/
theorem witness_reconstructedValueOfEachByte : 1 ≤ 4 ∧ 4 ≤ 6 ∧ (0x07#8).toNat / 2 ^ (7 - 4) % 2 ^ 4 = 0 ∧
    (0x08#8).toNat / 2 ^ (7 - 4) % 2 ^ 4 ≠ 0 := by decide

/-- UpperOpaBitsAreIgnored: 0xDEADBE3C against 0x0000003C (section 2.3), with both commands answering. -/
theorem witness_upperOpaBitsAreIgnored :
    (0xDEADBE3C#32).extractLsb' 0 8 = (scalar 0x0000003C#32 0#8 0#32).opa.extractLsb' 0 8 ∧
    (nextOf (exec (.decode 4) (scalar 0x0000003C#32 0#8 0#32))).isSome = true ∧
    (nextOf (exec (.approxMultiply 4) (scalar 0x0000003C#32 0#8 0#32))).isSome = true := by decide

/-- StatedDrawsReachTheFollowingCommand: lines before a command, and a statement about the port before a write of `CMD`. -/
theorem witness_statedDrawsReachTheFollowingCommand :
    (∀ l ∈ [ScriptLine.rnd [5#32], .rd .RES none], l.isCommand = false) ∧ (ScriptLine.command 0x40#8).isCommand = true ∧
    (pending [.rnd [5#32], .writeReg 0 0x40]).inputs = .rnd [5#32] :: .writeReg 0 0x40 :: [] ∧
    statusBusy (pending [.rnd [5#32], .writeReg 0 0x40]).status = false := by decide

/-! ### Witnesses: the addition and the matrix product -/

/-- FaddRoundsToNearestEven: the tie of section 2.5 against its other neighbour. -/
theorem witness_faddRoundsToNearestEven : fp32Finite 0x4BC00000#32 = true ∧ fp32Finite 0x40400000#32 = true ∧
    fp32Finite 0x4BC00001#32 = true ∧ fp32Finite (fadd32 0x4BC00000#32 0x40400000#32) = true := by decide +kernel

/-- FaddRoundsToNearestEven, its second clause: that neighbour is as near, and another number. -/
theorem witness_faddRoundsToNearestEven_tie :
    |val32 (fadd32 0x4BC00000#32 0x40400000#32) - (val32 0x4BC00000#32 + val32 0x40400000#32)| =
      |val32 0x4BC00001#32 - (val32 0x4BC00000#32 + val32 0x40400000#32)| ∧
    val32 0x4BC00001#32 ≠ val32 (fadd32 0x4BC00000#32 0x40400000#32) := by
  rw [show fadd32 0x4BC00000#32 0x40400000#32 = 0x4BC00002#32 by decide +kernel,
    val32_of_fixed (v := 0x4BC00002#32) (z := 25165828 * 2 ^ 149) (by decide +kernel),
    val32_of_fixed (v := 0x4BC00001#32) (z := 25165826 * 2 ^ 149) (by decide +kernel),
    val32_of_fixed (v := 0x4BC00000#32) (z := 25165824 * 2 ^ 149) (by decide +kernel),
    val32_of_fixed (v := 0x40400000#32) (z := 3 * 2 ^ 149) (by decide +kernel)]
  norm_num

/-- FaddOverflowsPastTheLargest: the largest finite number twice. -/
theorem witness_faddOverflowsPastTheLargest : fp32Finite 0x7F7FFFFF#32 = true ∧
    fp32Finite (fadd32 0x7F7FFFFF#32 0x7F7FFFFF#32) = false := by decide +kernel

/-- FaddZeroSign: a cancellation and two negative zeros. -/
theorem witness_faddZeroSign : fp32Finite 0x3F900000#32 = true ∧ fp32Finite 0xBF900000#32 = true ∧
    val32 0x3F900000#32 + val32 0xBF900000#32 = 0 ∧ val32 0x80000000#32 + val32 0x80000000#32 = 0 := by
  rw [val32_of_fixed (v := 0x3F900000#32) (z := 9 * 2 ^ 146) (by decide +kernel),
    val32_of_fixed (v := 0xBF900000#32) (z := -(9 * 2 ^ 146)) (by decide +kernel),
    val32_of_fixed (v := 0x80000000#32) (z := 0) (by decide +kernel)]
  exact ⟨by decide, by decide, by norm_num, by norm_num⟩

/-- FaddIsExactOnRepresentableSums: 2.25 + 1.125 = 3.375 (section 2.5). -/
theorem witness_faddIsExactOnRepresentableSums : fp32Finite 0x40100000#32 = true ∧ fp32Finite 0x3F900000#32 = true ∧
    fp32Finite 0x40580000#32 = true ∧ val32 0x40580000#32 ≠ 0 ∧
    val32 0x40580000#32 = val32 0x40100000#32 + val32 0x3F900000#32 := by
  rw [val32_of_fixed (v := 0x40580000#32) (z := 27 * 2 ^ 146) (by decide +kernel),
    val32_of_fixed (v := 0x40100000#32) (z := 18 * 2 ^ 146) (by decide +kernel),
    val32_of_fixed (v := 0x3F900000#32) (z := 9 * 2 ^ 146) (by decide +kernel)]
  exact ⟨by decide, by decide, by decide, by norm_num, by norm_num⟩

/-- ApproxMatmulCompletes. -/
theorem witness_approxMatmulCompletes : 1 ≤ 4 ∧ 4 ≤ 6 ∧ oneByOne.xrows ≠ 0 ∧ oneByOne.xcols ≠ 0 ∧ oneByOne.ycols ≠ 0 ∧
    oneByOne.xcols = oneByOne.yrows ∧
    (∀ p < oneByOne.xrows * oneByOne.xcols, oneByOne.xf.read p = some ((fun _ => 0x40000000#32) p)) ∧
    ∀ q < oneByOne.yrows * oneByOne.ycols, oneByOne.yf.read q = some ((fun _ => 0x40000000#32) q) := by decide

/-- OneByOneProductIsOneMultiply. -/
theorem witness_oneByOneProductIsOneMultiply : 1 ≤ 4 ∧ 4 ≤ 6 ∧ oneByOne.xrows = 1 ∧ oneByOne.xcols = 1 ∧
    oneByOne.yrows = 1 ∧ oneByOne.ycols = 1 ∧ oneByOne.xf.read 0 = some 0x40000000#32 ∧
    oneByOne.yf.read 0 = some 0x40000000#32 := by decide

end Sys2Proof.Machine.Tests
end

/-! The state family (10_state.md): what each command and each host access writes and leaves, the machine's invariant, the
ending of a command, and the draw port. -/

namespace Sys2Proof.Machine

/-! ### What a command that answers did, by cases with names -/

/-- `Effect s i t`: the command `i`, run in `s`, may end in `t`. The cases are those of `exec_cases`, each with what its
operation computed: an error's entry, or the effect of one of the five operations (60_exceptions.md R190, R191). -/
inductive Effect (s : State) : Instr → State → Prop
  | error (i : Instr) (e : ErrKind) (he : e ≠ .ok) : Effect s i (endCommand e s)
  | downcast (ne : Nat) (h1 : 1 ≤ ne) (h6 : ne ≤ 6) :
      Effect s (.downcast ne) (endCommand .ok { s with
        res := (Machine.downcast s.opa ne (drawValue s.rnd 0)).setWidth 32
        rnd := drawAdvance s.rnd 1 })
  | decode (ne : Nat) (h1 : 1 ≤ ne) (h6 : ne ≤ 6) :
      Effect s (.decode ne) (endCommand .ok { s with
        dsign := (decodeFp8 (opaByte s) ne).sign
        dexp := BitVec.ofInt 8 (decodeFp8 (opaByte s) ne).exp
        dfrac := BitVec.ofNat 6 (scale64 ne (decodeFp8 (opaByte s) ne).frac)
        dsig := BitVec.ofNat 7 (scale64 ne (decodeFp8 (opaByte s) ne).sig) })
  | approxMultiply (ne : Nat) (h1 : 1 ≤ ne) (h6 : ne ≤ 6) :
      Effect s (.approxMultiply ne) (endCommand .ok { s with res := Machine.approxMultiply (opaByte s) s.opb ne })
  | downcastMatrix (ne : Nat) (q : Buffer 8)
      (hq : quantizeLoop .xf s.xf s.xq ne s.rnd 0 (s.xrows * s.xcols) = .ok q) :
      Effect s (.downcastMatrix ne) (endCommand .ok { s with xq := q, rnd := drawAdvance s.rnd (s.xrows * s.xcols) })
  | approxMatmul (ne : Nat) (xq yq : Buffer 8) (zf : Buffer 32)
      (hx : quantizeLoop .xf s.xf s.xq ne s.rnd 0 (s.xrows * s.xcols) = .ok xq)
      (hy : quantizeLoop .yf s.yf s.yq ne s.rnd (s.xrows * s.xcols) (s.yrows * s.ycols) = .ok yq)
      (hz : productLoop xq yq s.zf ne s.xcols s.ycols (s.xrows * s.ycols) = .ok zf) :
      Effect s (.approxMatmul ne) (endCommand .ok { s with
        xq := xq
        yq := yq
        zf := zf
        zrows := s.xrows
        zcols := s.ycols
        rnd := drawAdvance s.rnd (s.xrows * s.xcols + s.yrows * s.ycols) })

/-- Every command that answers a next state had one of the named effects. -/
theorem exec_effect {i : Instr} {s t : State} (h : exec i s = .next t) : Effect s i t := by
  rcases exec_cases h with ⟨e, he, rfl⟩ | ⟨ne, rfl, h1, h6, rfl⟩ | ⟨ne, rfl, h1, h6, rfl⟩ | ⟨ne, rfl, h1, h6, rfl⟩ |
    ⟨ne, q, rfl, -, -, -, -, hq, rfl⟩ | ⟨ne, xq, yq, zf, rfl, -, -, -, -, -, -, -, hx, hy, hz, rfl⟩
  · exact .error i e he
  · exact .downcast ne h1 h6
  · exact .decode ne h1 h6
  · exact .approxMultiply ne h1 h6
  · exact .downcastMatrix ne q hq
  · exact .approxMatmul ne xq yq zf hx hy hz

/-! ### The machine's invariant (10_state.md R13, R15, R19, R22; 20_memory.md R42) -/

/-- The status a command leaves: `BUSY` 0 and one of the five codes (10_state.md R15). -/
theorem statusLegal_endCommand (e : ErrKind) (s : State) : StatusLegal (endCommand e s) := by
  cases e <;> simp [StatusLegal, statusWord_idle_toNat, errCode]

theorem statusWord_errCode_eq_zero_iff (e : ErrKind) : statusWord 0#1 (errCode e) = 0x00#8 ↔ e = .ok := by
  cases e <;> decide

theorem two_pow_manWidth_mul {ne : Nat} (h1 : 1 ≤ ne) (h6 : ne ≤ 6) : 2 ^ manWidth ne * 2 ^ (ne - 1) = 64 := by
  rw [← pow_add, manWidth, show 7 - ne + (ne - 1) = 6 by omega]
  norm_num

/-- The factor that brings a numerator of denominator `2^nm` to the denominator 64 (10_state.md R19). -/
theorem scale64_eq {ne : Nat} (h1 : 1 ≤ ne) (h6 : ne ≤ 6) (n : Nat) : scale64 ne n = n * 2 ^ (ne - 1) := by
  rw [scale64, Nat.shiftLeft_eq, manWidth, show 6 - (7 - ne) = ne - 1 by omega]

/-- `f * 64` fits its six bits. -/
theorem fp8Man_scaled_lt (b : Byte) {ne : Nat} (h1 : 1 ≤ ne) (h6 : ne ≤ 6) : fp8Man b ne * 2 ^ (ne - 1) < 64 := by
  rw [← two_pow_manWidth_mul h1 h6, fp8Man_eq]
  exact Nat.mul_lt_mul_of_pos_right (Nat.mod_lt _ (by positivity)) (by positivity)

/-- `DFRAC` after `DECODE`: `f * 64` (10_state.md R19). -/
theorem dfrac_toNat (b : Byte) {ne : Nat} (h1 : 1 ≤ ne) (h6 : ne ≤ 6) :
    (BitVec.ofNat 6 (scale64 ne (decodeFp8 b ne).frac)).toNat = fp8Man b ne * 2 ^ (ne - 1) := by
  rw [scale64_eq h1 h6, BitVec.toNat_ofNat]
  exact Nat.mod_eq_of_lt (fp8Man_scaled_lt b h1 h6)

/-- `DSIG` after `DECODE`: `M * 64` (10_state.md R19). -/
theorem dsig_toNat (b : Byte) {ne : Nat} (h1 : 1 ≤ ne) (h6 : ne ≤ 6) :
    (BitVec.ofNat 7 (scale64 ne (decodeFp8 b ne).sig)).toNat =
      if fp8Exp b ne = 0 then 0 else 64 + fp8Man b ne * 2 ^ (ne - 1) := by
  rw [scale64_eq h1 h6, BitVec.toNat_ofNat]
  dsimp only [decodeFp8]
  split_ifs
  · simp
  · have := fp8Man_scaled_lt b h1 h6
    rw [add_mul, two_pow_manWidth_mul h1 h6]
    omega

/-- The range of the decoded exponent (41_lmul.md R134). -/
theorem decodeFp8_exp_bounds (b : Byte) {ne : Nat} (h1 : 1 ≤ ne) (h6 : ne ≤ 6) :
    -30 ≤ (decodeFp8 b ne).exp ∧ (decodeFp8 b ne).exp ≤ 32 := by
  have he := fp8Exp_le b ne
  dsimp only [decodeFp8]
  rcases ne_cases h1 h6 with rfl | rfl | rfl | rfl | rfl | rfl <;>
    simp only [bias, expMax] at * <;> split_ifs <;> omega

/-- `DEXP` after `DECODE`: `E` in two's complement (10_state.md R19). -/
theorem dexp_toInt (b : Byte) {ne : Nat} (h1 : 1 ≤ ne) (h6 : ne ≤ 6) :
    (BitVec.ofInt 8 (decodeFp8 b ne).exp).toInt = (decodeFp8 b ne).exp := by
  obtain ⟨hl, hu⟩ := decodeFp8_exp_bounds b h1 h6
  exact BitVec.toInt_ofInt_eq_self (by norm_num) (by omega) (by omega)

/-- The registers `DECODE` writes hold a tuple of R134's ranges, whatever the byte. -/
theorem decodeRegsLegal_of_decode (b : Byte) {ne : Nat} (h1 : 1 ≤ ne) (h6 : ne ≤ 6) {t : State}
    (he : t.dexp = BitVec.ofInt 8 (decodeFp8 b ne).exp)
    (hf : t.dfrac = BitVec.ofNat 6 (scale64 ne (decodeFp8 b ne).frac))
    (hs : t.dsig = BitVec.ofNat 7 (scale64 ne (decodeFp8 b ne).sig)) : DecodeRegsLegal t := by
  rw [DecodeRegsLegal, he, hf, hs, dexp_toInt b h1 h6, dfrac_toNat b h1 h6, dsig_toNat b h1 h6]
  refine ⟨?_, decodeFp8_exp_bounds b h1 h6⟩
  by_cases h0 : fp8Exp b ne = 0
  · exact .inl (by simp [decodeFp8, h0])
  · exact .inr (if_neg h0)

/-- The elements of a shape that fits the dimension registers lie inside a buffer (20_memory.md R42). -/
theorem shape_le_bufferSize {s : State} {r c : Nat} (hr : r < 2 ^ s.params.dimw) (hc : c < 2 ^ s.params.dimw) :
    r * c ≤ bufferSize s := by
  rw [bufferSize, two_mul, pow_add]
  exact Nat.mul_le_mul hr.le hc.le

/-- A command keeps the dimension registers in their ranges. -/
theorem exec_keeps_dimsFit {i : Instr} {s t : State} (h : exec i s = .next t) (hd : DimsFit s) : DimsFit t := by
  obtain ⟨hw, hxr, hxc, hyr, hyc, -, -⟩ := id hd
  cases exec_effect h with
  | approxMatmul => exact ⟨hw, hxr, hxc, hyr, hyc, hxr, hyc⟩
  | _ => exact hd

/-- A command keeps the canonical form of the buffers. -/
theorem exec_keeps_memoryWf {i : Instr} {s t : State} (h : exec i s = .next t) (hm : Memory.wf s) : Memory.wf t := by
  obtain ⟨hxf, hyf, hxq, hyq, hzf⟩ := id hm
  cases exec_effect h with
  | downcastMatrix _ _ hq => exact ⟨hxf, hyf, (quantizeLoop_keeps hq).1 hxq, hyq, hzf⟩
  | approxMatmul _ _ _ _ hx hy hz =>
    exact ⟨hxf, hyf, (quantizeLoop_keeps hx).1 hxq, (quantizeLoop_keeps hy).1 hyq, (productLoop_keeps hz).1 hzf⟩
  | _ => exact hm

/-- A command writes no element outside its buffer, since the shapes it works on fit. -/
theorem exec_keeps_buffersWithin {i : Instr} {s t : State} (h : exec i s = .next t) (hd : DimsFit s)
    (hw : BuffersWithin s) : BuffersWithin t := by
  obtain ⟨-, hxr, hxc, hyr, hyc, -, -⟩ := hd
  obtain ⟨hxf, hyf, hxq, hyq, hzf⟩ := id hw
  cases exec_effect h with
  | downcastMatrix _ _ hq =>
    exact ⟨hxf, hyf, (quantizeLoop_keeps hq).2 _ (shape_le_bufferSize hxr hxc) hxq, hyq, hzf⟩
  | approxMatmul _ _ _ _ hx hy hz =>
    exact ⟨hxf, hyf, (quantizeLoop_keeps hx).2 _ (shape_le_bufferSize hxr hxc) hxq,
      (quantizeLoop_keeps hy).2 _ (shape_le_bufferSize hyr hyc) hyq,
      (productLoop_keeps hz).2.1 _ (shape_le_bufferSize hxr hyc) hzf⟩
  | _ => exact hw

/-- A command keeps a legal tuple in the decode registers; `DECODE` writes one. -/
theorem exec_keeps_decodeRegsLegal {i : Instr} {s t : State} (h : exec i s = .next t) (hr : DecodeRegsLegal s) :
    DecodeRegsLegal t := by
  cases exec_effect h with
  | decode _ h1 h6 => exact decodeRegsLegal_of_decode (opaByte s) h1 h6 rfl rfl rfl
  | _ => exact hr

/-- Every command that answers has ended: `BUSY` is 0 and `ERR` holds an outcome's code. -/
theorem exec_endCommand {i : Instr} {s t : State} (h : exec i s = .next t) : ∃ e u, t = endCommand e u := by
  cases exec_effect h <;> exact ⟨_, _, rfl⟩

theorem exec_statusLegal {i : Instr} {s t : State} (h : exec i s = .next t) : StatusLegal t := by
  obtain ⟨e, u, rfl⟩ := exec_endCommand h
  exact statusLegal_endCommand e u

/-- A command run from a state of the invariant's ranges, whatever its `STATUS`, ends in the invariant. -/
theorem exec_inv {i : Instr} {s t : State} (h : exec i s = .next t) (hd : DimsFit s) (hm : Memory.wf s)
    (hw : BuffersWithin s) (hr : DecodeRegsLegal s) : t.Inv where
  dims := exec_keeps_dimsFit h hd
  canonical := exec_keeps_memoryWf h hm
  within := exec_keeps_buffersWithin h hd hw
  status := exec_statusLegal h
  decodeRegs := exec_keeps_decodeRegsLegal h hr

/-- The invariant does not speak of the host's side or of the draw port. -/
theorem State.Inv.withOutside {s : State} (hs : s.Inv) (inputs : List Input) (received : List Nat) (rnd : DrawPort) :
    { s with inputs := inputs, received := received, rnd := rnd }.Inv :=
  ⟨hs.dims, hs.canonical, hs.within, hs.status, hs.decodeRegs⟩

/-- A host write of a register keeps the invariant: a dimension register takes its low bits only (10_state.md R13). -/
theorem writeRegister_keeps_inv {s t : State} {reg value : Nat} (h : writeRegister s reg value = some t) (hs : s.Inv) :
    t.Inv := by
  obtain ⟨⟨hw, hxr, hxc, hyr, hyc, hzr, hzc⟩, hm, hb, hst, hr⟩ := id hs
  have hv := dimBits_lt s value
  rcases writeRegister_cases h with rfl | rfl | rfl | rfl | rfl | rfl | rfl
  · exact hs
  · exact ⟨hs.dims, hm, hb, hst, hr⟩
  · exact ⟨hs.dims, hm, hb, hst, hr⟩
  · exact ⟨⟨hw, hv, hxc, hyr, hyc, hzr, hzc⟩, hm, hb, hst, hr⟩
  · exact ⟨⟨hw, hxr, hv, hyr, hyc, hzr, hzc⟩, hm, hb, hst, hr⟩
  · exact ⟨⟨hw, hxr, hxc, hv, hyc, hzr, hzc⟩, hm, hb, hst, hr⟩
  · exact ⟨⟨hw, hxr, hxc, hyr, hv, hzr, hzc⟩, hm, hb, hst, hr⟩

/-- A host write of an element of `XF` inside the buffer keeps the invariant. -/
theorem write_xf_keeps_inv {s : State} {index : Nat} (hs : s.Inv) (hi : index < bufferSize s) (value : Word) :
    { s with xf := s.xf.write index value }.Inv := by
  obtain ⟨hd, ⟨hxf, hm⟩, ⟨hxw, hw⟩, hst, hr⟩ := hs
  exact ⟨hd, ⟨Buffer.wf_write hxf .., hm⟩, ⟨Buffer.within_write hxw hi _, hw⟩, hst, hr⟩

/-- A host write of an element of `YF` inside the buffer keeps the invariant. -/
theorem write_yf_keeps_inv {s : State} {index : Nat} (hs : s.Inv) (hi : index < bufferSize s) (value : Word) :
    { s with yf := s.yf.write index value }.Inv := by
  obtain ⟨hd, ⟨hxf, hyf, hm⟩, ⟨hxw, hyw, hw⟩, hst, hr⟩ := hs
  exact ⟨hd, ⟨hxf, Buffer.wf_write hyf .., hm⟩, ⟨hxw, Buffer.within_write hyw hi _, hw⟩, hst, hr⟩

/-- The core's reset state meets the invariant under any parameter `DIMW` of at least 1 (10_state.md R27; 00_scope.md R7). -/
theorem resetCore_inv {s : State} (hd : 1 ≤ s.params.dimw) : (resetCore s).Inv := by
  have h0 : 0 < 2 ^ s.params.dimw := by positivity
  refine ⟨⟨hd, h0, h0, h0, h0, h0, h0⟩, memory_wf_reset, ?_, ?_, ?_⟩
  · simp [BuffersWithin, Buffer.within, State.reset]
  · simp [StatusLegal, State.reset]
  · simp [DecodeRegsLegal, State.reset]

/-- Settles O17: each kind of step that `step_cases` lists keeps the invariant. -/
theorem stepKeepsTheInvariant : Obligations.StepKeepsTheInvariant := by
  intro s t hs h
  have hIn (rest : List Input) : { s with inputs := rest }.Inv := hs.withOutside rest s.received s.rnd
  rcases step_cases h with ⟨-, rfl⟩ | ⟨w, rest, -, -, he⟩ | ⟨reg, value, rest, -, -, hw⟩ | ⟨v, rest, rfl⟩ |
    ⟨index, value, rest, hi, rfl | rfl⟩ | ⟨draws, rest, -, rfl⟩ | ⟨rest, -, rfl⟩
  · exact hs
  · exact exec_inv he hs.dims hs.canonical hs.within hs.decodeRegs
  · exact writeRegister_keeps_inv hw (hIn rest)
  · exact hs.withOutside rest (v :: s.received) s.rnd
  · exact write_xf_keeps_inv (hIn rest) hi value
  · exact write_yf_keeps_inv (hIn rest) hi value
  · exact hs.withOutside rest s.received { queue := draws, taken := s.rnd.taken }
  · exact resetCore_inv (s := { s with inputs := rest }) hs.dims.1

/-- Settles O16: the reset state is the core's reset state under the reference parameter, and `ZF` has no element. -/
theorem resetMeetsTheInvariant : Obligations.ResetMeetsTheInvariant :=
  ⟨resetCore_inv (s := State.reset) (by decide), by simp [ResultsNormal, State.reset]⟩

/-! ### What the commands write (10_state.md R13 to R22) -/

@[simp] theorem status_endCommand_ok (s : State) : (endCommand .ok s).status = 0x00#8 := rfl

/-- An error's code is not the code of success (60_exceptions.md R180). -/
theorem status_endCommand_ne_zero {e : ErrKind} (he : e ≠ .ok) (s : State) : (endCommand e s).status ≠ 0x00#8 :=
  mt (statusWord_errCode_eq_zero_iff e).mp he

/-- Settles O22: none of these fields is in an effect of a command. -/
theorem commandsLeaveTheirOperands : Obligations.CommandsLeaveTheirOperands := by
  intro i s t h
  cases exec_effect h <;> exact ⟨rfl, rfl, rfl, rfl, rfl, rfl, rfl, rfl, rfl, rfl, rfl, rfl⟩

/-- A failed command changes nothing but `STATUS` (60_exceptions.md R190). -/
theorem exec_failed {i : Instr} {s t : State} (h : exec i s = .next t) (hs : t.status ≠ 0x00#8) :
    t = { s with status := t.status } := by
  cases exec_effect h with
  | error => rfl
  | _ => exact absurd rfl hs

/-- A command that changes a decode register is a successful `DECODE`. -/
theorem exec_changes_decodeRegs {i : Instr} {s t : State} (h : exec i s = .next t)
    (hc : t.dsign ≠ s.dsign ∨ t.dexp ≠ s.dexp ∨ t.dfrac ≠ s.dfrac ∨ t.dsig ≠ s.dsig) :
    (∃ ne, i = .decode ne) ∧ t.status = 0x00#8 := by
  cases exec_effect h with
  | decode ne => exact ⟨⟨ne, rfl⟩, rfl⟩
  | _ => simp at hc

/-- A command that changes the result's shape is a successful `APPROX_MATMUL`. -/
theorem exec_changes_resultShape {i : Instr} {s t : State} (h : exec i s = .next t)
    (hc : t.zrows ≠ s.zrows ∨ t.zcols ≠ s.zcols) : (∃ ne, i = .approxMatmul ne) ∧ t.status = 0x00#8 := by
  cases exec_effect h with
  | approxMatmul ne => exact ⟨⟨ne, rfl⟩, rfl⟩
  | _ => simp at hc

/-- A command that changes `XQ` is a successful matrix command. -/
theorem exec_changes_xq {i : Instr} {s t : State} (h : exec i s = .next t) (hc : t.xq ≠ s.xq) :
    t.status = 0x00#8 ∧ ∃ ne, i = .downcastMatrix ne ∨ i = .approxMatmul ne := by
  cases exec_effect h with
  | downcastMatrix ne => exact ⟨rfl, ne, .inl rfl⟩
  | approxMatmul ne => exact ⟨rfl, ne, .inr rfl⟩
  | _ => simp at hc

/-- A command that changes `YQ` or `ZF` is a successful `APPROX_MATMUL`. -/
theorem exec_changes_yq_zf {i : Instr} {s t : State} (h : exec i s = .next t) (hc : t.yq ≠ s.yq ∨ t.zf ≠ s.zf) :
    t.status = 0x00#8 ∧ ∃ ne, i = .approxMatmul ne := by
  cases exec_effect h with
  | approxMatmul ne => exact ⟨rfl, ne, rfl⟩
  | _ => simp at hc

/-- Zero extension of a byte, written as a concatenation (10_state.md R18). -/
theorem setWidth_eq_zero_append (b : Byte) : b.setWidth 32 = (0#24 ++ b : BitVec 32) :=
  BitVec.setWidth_eq_append (by norm_num)

/-- `RES` after a `DOWNCAST` that succeeded. -/
theorem exec_downcast_res {ne : Nat} {s t : State} (h : exec (.downcast ne) s = .next t) (hs : t.status = 0x00#8) :
    t.res = (0#24 ++ downcast s.opa ne (drawValue s.rnd 0) : BitVec 32) := by
  cases exec_effect h with
  | error _ _ he => exact absurd hs (status_endCommand_ne_zero he s)
  | downcast => exact setWidth_eq_zero_append _

/-- `RES` after an `APPROX_MULTIPLY` that succeeded. -/
theorem exec_approxMultiply_res {ne : Nat} {s t : State} (h : exec (.approxMultiply ne) s = .next t)
    (hs : t.status = 0x00#8) : t.res = approxMultiply (opaByte s) s.opb ne := by
  cases exec_effect h with
  | error _ _ he => exact absurd hs (status_endCommand_ne_zero he s)
  | approxMultiply => rfl

/-- A command that changes `RES` is a `DOWNCAST` or an `APPROX_MULTIPLY`. -/
theorem exec_changes_res {i : Instr} {s t : State} (h : exec i s = .next t) (hc : t.res ≠ s.res) :
    ∃ ne, i = .downcast ne ∨ i = .approxMultiply ne := by
  cases exec_effect h with
  | downcast ne => exact ⟨ne, .inl rfl⟩
  | approxMultiply ne => exact ⟨ne, .inr rfl⟩
  | _ => simp at hc

/-- Settles O23: one lemma for each of the two commands, the frame of a failed command, and which commands write `RES`. -/
theorem resIsWrittenByItsTwoCommandsOnly : Obligations.ResIsWrittenByItsTwoCommandsOnly := by
  intro i s t h
  refine ⟨?_, ?_, fun hs => ?_, fun hd hm => ?_⟩
  · rintro ne rfl hs
    exact exec_downcast_res h hs
  · rintro ne rfl hs
    exact exec_approxMultiply_res h hs
  · rw [exec_failed h hs]
  · by_contra hc
    obtain ⟨ne, hi | hi⟩ := exec_changes_res h hc
    · exact hd ne hi
    · exact hm ne hi

/-! ### What a step writes besides the command it runs -/

/-- The registers and buffers that no host access writes have kept their values (10_state.md R13, R22). -/
structure SameResults (s t : State) : Prop where
  res : t.res = s.res
  dsign : t.dsign = s.dsign
  dexp : t.dexp = s.dexp
  dfrac : t.dfrac = s.dfrac
  dsig : t.dsig = s.dsig
  zrows : t.zrows = s.zrows
  zcols : t.zcols = s.zcols
  xq : t.xq = s.xq
  yq : t.yq = s.yq
  zf : t.zf = s.zf

/-- No host write of a register touches a result. -/
theorem writeRegister_sameResults {s t : State} {reg value : Nat} (h : writeRegister s reg value = some t) :
    SameResults s t := by
  rcases writeRegister_cases h with rfl | rfl | rfl | rfl | rfl | rfl | rfl <;>
    exact ⟨rfl, rfl, rfl, rfl, rfl, rfl, rfl, rfl, rfl, rfl⟩

/-- A step is a reset, a write of `CMD` that runs its command, or leaves the results alone. -/
theorem step_results {s t : State} (h : step s = .next t) :
    (∃ rest, s.inputs = .reset :: rest) ∨
    (∃ w rest, s.inputs = .writeReg 0 w :: rest ∧
      exec (decodeWord (BitVec.ofNat 8 w)) (startCommand (BitVec.ofNat 8 w) { s with inputs := rest }) = .next t) ∨
    SameResults s t := by
  rcases step_cases h with ⟨-, rfl⟩ | ⟨w, rest, hi, -, he⟩ | ⟨reg, value, rest, -, -, hw⟩ | ⟨v, rest, rfl⟩ |
    ⟨index, value, rest, -, rfl | rfl⟩ | ⟨draws, rest, -, rfl⟩ | ⟨rest, hi, -⟩
  case inr.inl => exact .inr (.inl ⟨w, rest, hi, he⟩)
  case inr.inr.inl =>
    obtain ⟨h1, h2, h3, h4, h5, h6, h7, h8, h9, h10⟩ := writeRegister_sameResults hw
    exact .inr (.inr ⟨h1, h2, h3, h4, h5, h6, h7, h8, h9, h10⟩)
  case inr.inr.inr.inr.inr.inr => exact .inl ⟨rest, hi⟩
  all_goals exact .inr (.inr ⟨rfl, rfl, rfl, rfl, rfl, rfl, rfl, rfl, rfl, rfl⟩)

/-- The row of the command word a write of `CMD` stores: the low four bits of the value (10_state.md R14). -/
theorem opOf_commandWord {w : Nat} {i : Instr} (h : decodeWord (BitVec.ofNat 8 w) = i) : w % 16 = opOf i := by
  rw [← h, opOf_decodeWord, BitVec.toNat_ofNat]
  omega

/-- Settles O24: the step's part follows from the command's, since the host's other accesses leave the results alone. -/
theorem decodeRegsAreWrittenByDecodeOnly : Obligations.DecodeRegsAreWrittenByDecodeOnly := by
  refine ⟨fun i s t => exec_changes_decodeRegs, fun s t h hc => ?_⟩
  rcases step_results h with hr | ⟨w, rest, hi, he⟩ | hsame
  · exact .inl hr
  · obtain ⟨⟨ne, hd⟩, hs⟩ := exec_changes_decodeRegs he hc
    exact .inr ⟨hs, w, rest, hi, opOf_commandWord hd⟩
  · simp [hsame.dsign, hsame.dexp, hsame.dfrac, hsame.dsig] at hc

/-- The shape a successful `APPROX_MATMUL` writes. -/
theorem exec_approxMatmul_resultShape {ne : Nat} {s t : State} (h : exec (.approxMatmul ne) s = .next t)
    (hs : t.status = 0x00#8) : t.zrows = s.xrows ∧ t.zcols = s.ycols := by
  cases exec_effect h with
  | error _ _ he => exact absurd hs (status_endCommand_ne_zero he s)
  | approxMatmul => exact ⟨rfl, rfl⟩

/-- Settles O25: as for the decode registers, with the row of `APPROX_MATMUL`. -/
theorem resultShapeIsWrittenByMatmulOnly : Obligations.ResultShapeIsWrittenByMatmulOnly := by
  refine ⟨fun ne s t => exec_approxMatmul_resultShape, fun s t h hc => ?_⟩
  rcases step_results h with hr | ⟨w, rest, hi, he⟩ | hsame
  · exact .inl hr
  · obtain ⟨⟨ne, hd⟩, hs⟩ := exec_changes_resultShape he hc
    exact .inr ⟨hs, w, rest, hi, opOf_commandWord hd⟩
  · simp [hsame.zrows, hsame.zcols] at hc

/-- Settles O26: as for the decode registers, with the rows of the two matrix commands. -/
theorem quantizedBuffersAreWrittenByMatrixCommandsOnly : Obligations.QuantizedBuffersAreWrittenByMatrixCommandsOnly := by
  refine ⟨fun i s t h => ⟨exec_changes_xq h, exec_changes_yq_zf h⟩, fun s t h hnr => ?_⟩
  rcases step_results h with hr | ⟨w, rest, hi, he⟩ | hsame
  · exact absurd hr hnr
  · refine ⟨fun hc => ?_, fun hc => ?_⟩
    · obtain ⟨hs, ne, hd⟩ := exec_changes_xq he hc
      exact ⟨hs, w, rest, hi, hd.imp opOf_commandWord opOf_commandWord⟩
    · obtain ⟨hs, ne, hd⟩ := exec_changes_yq_zf he hc
      exact ⟨hs, w, rest, hi, opOf_commandWord hd⟩
  · exact ⟨fun hc => absurd hsame.xq hc, fun hc => by simp [hsame.yq, hsame.zf] at hc⟩

/-! ### How a command ends: its tests, then its effect or a fault (60_exceptions.md R187; 10_state.md R28) -/

theorem isEmptyShape_eq_false {r c : Nat} (h : ¬ShapeEmpty r c) : isEmptyShape r c = false := by
  rwa [← Bool.not_eq_true, isEmptyShape_iff]

/-- The tests `DOWNCAST_MATRIX` passed when it meets no error. -/
theorem downcastMatrix_tests_of_noError {ne : Nat} {s : State} (h : firstError (.downcastMatrix ne) s = none) :
    isEmptyShape s.xrows s.xcols = false ∧ neValid ne = true := by
  simp only [firstError] at h
  split_ifs at h with hx hn
  exact ⟨isEmptyShape_eq_false hx, (neValid_iff ne).mpr hn⟩

/-- The tests `APPROX_MATMUL` passed when it meets no error. -/
theorem approxMatmul_tests_of_noError {ne : Nat} {s : State} (h : firstError (.approxMatmul ne) s = none) :
    isEmptyShape s.xrows s.xcols = false ∧ neValid ne = true ∧ isEmptyShape s.yrows s.ycols = false ∧
      (s.xcols != s.yrows) = false := by
  simp only [firstError] at h
  split_ifs at h with hx hn hy hd
  exact ⟨isEmptyShape_eq_false hx, (neValid_iff ne).mpr hn, isEmptyShape_eq_false hy, by simpa using hd⟩

/-- `DOWNCAST_MATRIX` that passed its tests and meets an unwritten element. -/
theorem exec_downcastMatrix_fault {ne : Nat} {s : State} {f : Fault} (h : firstError (.downcastMatrix ne) s = none)
    (hq : quantizeLoop .xf s.xf s.xq ne s.rnd 0 (s.xrows * s.xcols) = .error f) :
    exec (.downcastMatrix ne) s = .fault f := by
  obtain ⟨hx, hn⟩ := downcastMatrix_tests_of_noError h
  simp [exec, execDowncastMatrix, hx, hn, hq]

/-- `DOWNCAST_MATRIX` that passed its tests and read all its elements. -/
theorem exec_downcastMatrix_complete {ne : Nat} {s : State} {q : Buffer 8} (h : firstError (.downcastMatrix ne) s = none)
    (hq : quantizeLoop .xf s.xf s.xq ne s.rnd 0 (s.xrows * s.xcols) = .ok q) :
    exec (.downcastMatrix ne) s = complete { s with xq := q, rnd := drawAdvance s.rnd (s.xrows * s.xcols) } := by
  obtain ⟨hx, hn⟩ := downcastMatrix_tests_of_noError h
  simp [exec, execDowncastMatrix, hx, hn, hq]

/-- `APPROX_MATMUL` that passed its tests runs its two phases (42_matmul.md R160). -/
theorem exec_approxMatmul_of_noError {ne : Nat} {s : State} (h : firstError (.approxMatmul ne) s = none) :
    exec (.approxMatmul ne) s = multiplyMatrices ne s := by
  obtain ⟨hx, hn, hy, hd⟩ := approxMatmul_tests_of_noError h
  simp only [exec, execApproxMatmul, hx, hn, hy, hd, Bool.not_true, Bool.false_eq_true, if_false]

/-- The two phases end in a completed command or in a fault. -/
theorem multiplyMatrices_status {ne : Nat} {s t : State} (h : multiplyMatrices ne s = .next t) : t.status = 0x00#8 := by
  unfold multiplyMatrices at h
  split at h
  · cases h
  split at h
  · cases h
  split at h
  · cases h
  injection h with h
  rw [← h, status_endCommand_ok]

/-- A scalar command that met no error has completed. -/
theorem scalar_status {ne : Nat} {s t u : State} (hn : (if 1 ≤ ne ∧ ne ≤ 6 then none else some (1 : BitVec 3)) = none)
    (h : (if neValid ne then complete u else raiseError .invalidFormat s) = .next t) : t.status = 0x00#8 := by
  rcases scalar_next h with ⟨hn', -⟩ | ⟨-, -, rfl⟩
  · simp [hn'] at hn
  · exact status_endCommand_ok u

/-- Settles O20: past its tests a command can only complete or fault, and to complete clears `STATUS`. -/
theorem successClearsStatus : Obligations.SuccessClearsStatus := by
  intro i s t hn h
  cases i with
  | downcast => exact scalar_status hn h
  | decode => exact scalar_status hn h
  | approxMultiply => exact scalar_status hn h
  | downcastMatrix ne =>
    cases hq : quantizeLoop .xf s.xf s.xq ne s.rnd 0 (s.xrows * s.xcols) with
    | error f => rw [exec_downcastMatrix_fault hn hq] at h; cases h
    | ok q =>
      rw [exec_downcastMatrix_complete hn hq] at h
      injection h with h
      rw [← h, status_endCommand_ok]
  | approxMatmul ne =>
    rw [exec_approxMatmul_of_noError hn] at h
    exact multiplyMatrices_status h
  | _ => cases hn

/-! ### Reads of unwritten elements (10_state.md R28) -/

/-- The first phase of `APPROX_MATMUL` faults at the first unwritten element of X. -/
theorem multiplyMatrices_fault_xf {ne k : Nat} {s : State} (hk : k < s.xrows * s.xcols) (hw : WrittenUpTo s.xf k)
    (hu : s.xf.read k = none) : multiplyMatrices ne s = .fault (.unwrittenElement .xf k) := by
  simp [multiplyMatrices, quantizeLoop_fault hk hw hu]

/-- With X written it faults at the first unwritten element of Y. -/
theorem multiplyMatrices_fault_yf {ne k : Nat} {s : State} (hx : WrittenUpTo s.xf (s.xrows * s.xcols))
    (hk : k < s.yrows * s.ycols) (hw : WrittenUpTo s.yf k) (hu : s.yf.read k = none) :
    multiplyMatrices ne s = .fault (.unwrittenElement .yf k) := by
  obtain ⟨xq, hxq⟩ := quantizeLoop_ok_of_written (id := .xf) (dst := s.xq) (ne := ne) (p := s.rnd) (base := 0) hx
  simp [multiplyMatrices, hxq, quantizeLoop_fault hk hw hu]

/-- Settles O42: the quantizing loop faults at its first unwritten element, X before Y. -/
theorem unwrittenInputFaults : Obligations.UnwrittenInputFaults := by
  intro ne s k
  refine ⟨fun hn hk hw hu => ?_, fun hn hk hw hu => ?_, fun hn hx hk hw hu => ?_⟩
  · exact exec_downcastMatrix_fault hn (quantizeLoop_fault hk hw hu)
  · rw [exec_approxMatmul_of_noError hn, multiplyMatrices_fault_xf hk hw hu]
  · rw [exec_approxMatmul_of_noError hn, multiplyMatrices_fault_yf hx hk hw hu]

/-! ### Commands on written inputs answer (60_exceptions.md R186, R191) -/

/-- An element of a row-major matrix lies inside it (20_memory.md R41). -/
theorem matrixIndex_lt {rows columns i j : Nat} (hi : i < rows) (hj : j < columns) :
    matrixIndex columns i j < rows * columns := by
  have : (i + 1) * columns ≤ rows * columns := Nat.mul_le_mul_right _ hi
  rw [matrixIndex]
  linarith [Nat.add_one_mul i columns]

/-- A quantized matrix is written. -/
theorem quantizeLoop_written {id : BufferId} {src : Buffer 32} {dst q : Buffer 8} {ne : Nat} {p : DrawPort} {base n : Nat}
    (h : quantizeLoop id src dst ne p base n = .ok q) : WrittenUpTo q n := fun k hk =>
  let ⟨_, _, hq⟩ := (quantizeLoop_reads h).1 k hk
  ⟨_, hq⟩

/-- The accumulation of an output element over written bytes answers. -/
theorem macLoop_ok_of_written {xq yq : Buffer 8} {ne m kk n i j k : Nat} (hx : WrittenUpTo xq (m * kk))
    (hy : WrittenUpTo yq (kk * n)) (hi : i < m) (hj : j < n) (hk : k ≤ kk) : ∃ z, macLoop xq yq ne kk n i j k = .ok z := by
  induction k with
  | zero => exact ⟨_, rfl⟩
  | succ k ih =>
    obtain ⟨z, hz⟩ := ih (by omega)
    obtain ⟨bx, hbx⟩ := hx _ (matrixIndex_lt hi hk)
    obtain ⟨bY, hbY⟩ := hy _ (matrixIndex_lt hk hj)
    exact ⟨_, by simp [macLoop, hz, readElement_of_some hbx, readElement_of_some hbY]; rfl⟩

/-- The output loop over written bytes answers. -/
theorem productLoop_ok_of_written {xq yq : Buffer 8} {zf : Buffer 32} {ne m kk n : Nat} (hx : WrittenUpTo xq (m * kk))
    (hy : WrittenUpTo yq (kk * n)) : ∃ b, productLoop xq yq zf ne kk n (m * n) = .ok b := by
  have hmac : ∀ p, ∃ z, p < m * n → macLoop xq yq ne kk n (p / n) (p % n) kk = .ok z := fun p => by
    by_cases hp : p < m * n
    · have hn : 0 < n := Nat.pos_of_ne_zero fun h0 => by simp [h0] at hp
      obtain ⟨z, hz⟩ := macLoop_ok_of_written (ne := ne) hx hy ((Nat.div_lt_iff_lt_mul hn).mpr hp) (Nat.mod_lt p hn) le_rfl
      exact ⟨z, fun _ => hz⟩
    · exact ⟨0, fun h => absurd h hp⟩
  choose z hz using hmac
  obtain ⟨b, hb, -, -⟩ := productLoop_ok (zf := zf) hz
  exact ⟨b, hb⟩

/-- The two phases of `APPROX_MATMUL` on written inputs of matching dimensions answer. -/
theorem multiplyMatrices_answers {s : State} (ne : Nat) (hx : WrittenUpTo s.xf (s.xrows * s.xcols))
    (hy : WrittenUpTo s.yf (s.yrows * s.ycols)) (hd : s.xcols = s.yrows) : ∃ t, multiplyMatrices ne s = .next t := by
  obtain ⟨xq, hxq⟩ := quantizeLoop_ok_of_written (id := .xf) (dst := s.xq) (ne := ne) (p := s.rnd) (base := 0) hx
  obtain ⟨yq, hyq⟩ := quantizeLoop_ok_of_written (id := .yf) (dst := s.yq) (ne := ne) (p := s.rnd)
    (base := s.xrows * s.xcols) hy
  obtain ⟨zf, hzf⟩ := productLoop_ok_of_written (zf := s.zf) (ne := ne) (m := s.xrows) (kk := s.xcols) (n := s.ycols)
    (quantizeLoop_written hxq) (hd ▸ quantizeLoop_written hyq)
  exact ⟨_, by simp [multiplyMatrices, hxq, hyq, hzf, complete]; rfl⟩

/-- A scalar command always answers. -/
theorem scalar_answers (ne : Nat) (s u : State) :
    ∃ t, (if neValid ne then complete u else raiseError .invalidFormat s) = .next t := by
  split_ifs <;> exact ⟨_, rfl⟩

/-- Settles O21: an error is a next state, and past the tests only an unwritten element could fault. -/
theorem commandsOnWrittenInputsEnd : Obligations.CommandsOnWrittenInputsEnd := by
  intro i s hw
  cases i with
  | downcast ne => exact scalar_answers ne s _
  | decode ne => exact scalar_answers ne s _
  | approxMultiply ne => exact scalar_answers ne s _
  | downcastMatrix ne =>
    obtain ⟨q, hq⟩ := quantizeLoop_ok_of_written (id := .xf) (dst := s.xq) (ne := ne) (p := s.rnd) (base := 0) hw
    simp only [exec, execDowncastMatrix, hq]
    split_ifs <;> exact ⟨_, rfl⟩
  | approxMatmul ne =>
    obtain ⟨hx, hy⟩ := hw
    simp only [exec, execApproxMatmul]
    split_ifs with _ _ _ hd
    case neg => exact multiplyMatrices_answers ne hx hy (by simpa using hd)
    all_goals exact ⟨_, rfl⟩
  | _ => exact ⟨_, rfl⟩

/-! ### One host access each (10_state.md R12 to R14, R22, R28) -/

section HostAccess

variable {s : State} {rest : List Input}

/-- A host write of a register other than `CMD`. -/
theorem step_writeReg {reg value : Nat} (h : s.inputs = .writeReg reg value :: rest) (hb : statusBusy s.status = false)
    (h0 : reg ≠ 0) : step s = hostWriteRegister reg value { s with inputs := rest } := by
  simp [step, fetch_perform h (.inl hb), perform, h0]

/-- A host read of a register. -/
theorem step_readReg {reg : Nat} (h : s.inputs = .readReg reg :: rest) (hb : statusBusy s.status = false) :
    step s = hostReadRegister reg { s with inputs := rest } := by
  simp [step, fetch_perform h (.inl hb), perform]

/-- A host write of a buffer element. -/
theorem step_writeBuf {buf : BufferId} {index : Nat} {value : Word} (h : s.inputs = .writeBuf buf index value :: rest)
    (hb : statusBusy s.status = false) : step s = hostWriteBuffer buf index value { s with inputs := rest } := by
  simp [step, fetch_perform h (.inl hb), perform]

/-- A host read of a buffer element. -/
theorem step_readBuf {buf : BufferId} {index : Nat} (h : s.inputs = .readBuf buf index :: rest)
    (hb : statusBusy s.status = false) : step s = hostReadBuffer buf index { s with inputs := rest } := by
  simp [step, fetch_perform h (.inl hb), perform]

end HostAccess

/-- Settles O5: the one byte decodes to the instruction that the write of `CMD` runs. -/
theorem stepRunsTheCommandWord : Obligations.StepRunsTheCommandWord := by
  intro s w rest i hi hb hd
  obtain rfl : decodeWord (BitVec.ofNat 8 w) = i := by simpa [decode_single] using hd
  rw [step_command hi hb, startCommand]

/-! ### Registers -/

/-- The registers as a list in the order of their numbers (10_state.md R13). -/
theorem readRegister_eq_getElem? (s : State) (reg : Nat) :
    readRegister s reg = [s.cmd.toNat, s.status.toNat, s.opa.toNat, s.opb.toNat, s.res.toNat, s.dsign.toNat, s.dexp.toNat,
      s.dfrac.toNat, s.dsig.toNat, s.xrows, s.xcols, s.yrows, s.ycols, s.zrows, s.zcols][reg]? := by
  by_cases h : reg < 15
  · interval_cases reg <;> rfl
  · obtain ⟨n, rfl⟩ := Nat.exists_eq_add_of_le' (not_lt.mp h)
    rfl

theorem readRegister_eq_none (s : State) {reg : Nat} (h : 15 ≤ reg) : readRegister s reg = none := by
  rw [readRegister_eq_getElem?, List.getElem?_eq_none h]

theorem writeRegister_eq_none (s : State) {reg : Nat} (h : 15 ≤ reg) (value : Nat) : writeRegister s reg value = none := by
  obtain ⟨n, rfl⟩ := Nat.exists_eq_add_of_le' h
  rfl

/-- A read that finds a register returns its value and changes nothing of the core. -/
theorem hostReadRegister_of_some {s : State} {reg v : Nat} (h : readRegister s reg = some v) :
    hostReadRegister reg s = .next (receive v s) := by
  simp [hostReadRegister, h]

/-- Settles O8: the register is the one of that number in the rule's list. -/
theorem hostReadsRegister : Obligations.HostReadsRegister := by
  intro s rest reg v hi hb hv
  exact (step_readReg hi hb).trans (hostReadRegister_of_some ((readRegister_eq_getElem? s reg).trans hv))

/-- A write of the registers 1 to 14, in one equation: the host-writable ones take the value's low bits, the others ignore
it (10_state.md R13, R16, R17, R20). -/
theorem writeRegister_eq_some (s : State) {reg : Nat} (h1 : 1 ≤ reg) (h14 : reg ≤ 14) (value : Nat) :
    writeRegister s reg value = some { s with
      opa := if reg = 2 then BitVec.ofNat 32 value else s.opa
      opb := if reg = 3 then BitVec.ofNat 8 value else s.opb
      xrows := if reg = 9 then dimBits s value else s.xrows
      xcols := if reg = 10 then dimBits s value else s.xcols
      yrows := if reg = 11 then dimBits s value else s.yrows
      ycols := if reg = 12 then dimBits s value else s.ycols } := by
  interval_cases reg <;> rfl

/-- Settles O9: the write's one equation, `dimBits` being the remainder by `2 ^ DIMW`. -/
theorem hostWritesRegister : Obligations.HostWritesRegister := by
  intro s rest reg value hi hb h1 h14
  rw [step_writeReg hi hb (by omega), hostWriteRegister, writeRegister_eq_some _ h1 h14]
  rfl

/-! ### Buffer elements -/

section Elements

variable {s : State} {index : Nat}

theorem hostWriteBuffer_xf (h : index < bufferSize s) (value : Word) :
    hostWriteBuffer .xf index value s = .next { s with xf := s.xf.write index value } := by
  simp [hostWriteBuffer, h]

theorem hostWriteBuffer_yf (h : index < bufferSize s) (value : Word) :
    hostWriteBuffer .yf index value s = .next { s with yf := s.yf.write index value } := by
  simp [hostWriteBuffer, h]

theorem hostWriteBuffer_readOnly {buf : BufferId} (h : index < bufferSize s) (hbuf : buf = .xq ∨ buf = .yq ∨ buf = .zf)
    (value : Word) : hostWriteBuffer buf index value s = .refused (.bufferNotHostWritable buf) := by
  rcases hbuf with rfl | rfl | rfl <;> simp [hostWriteBuffer, h]

theorem hostWriteBuffer_outside (h : bufferSize s ≤ index) (buf : BufferId) (value : Word) :
    hostWriteBuffer buf index value s = .refused (.noSuchElement buf index) := by
  rw [hostWriteBuffer.eq_def, if_neg (not_lt.mpr h)]

theorem hostReadBuffer_of_some {buf : BufferId} {v : Nat} (h : index < bufferSize s) (hv : readBuffer s buf index = some v) :
    hostReadBuffer buf index s = .next (receive v s) := by
  simp [hostReadBuffer, h, hv]

theorem hostReadBuffer_of_none {buf : BufferId} (h : index < bufferSize s) (hv : readBuffer s buf index = none) :
    hostReadBuffer buf index s = .refused (.unwrittenHostRead buf index) := by
  simp [hostReadBuffer, h, hv]

theorem hostReadBuffer_outside (h : bufferSize s ≤ index) (buf : BufferId) :
    hostReadBuffer buf index s = .refused (.noSuchElement buf index) := by
  rw [hostReadBuffer, if_neg (not_lt.mpr h)]

end Elements

/-- Settles O10: a write is read back, and every other element reads as before. -/
theorem hostWritesElement : Obligations.HostWritesElement := by
  intro s rest index value hb hlt
  refine ⟨fun hi => ?_, fun hi => ?_⟩
  · exact ⟨_, (step_writeBuf hi hb).trans (hostWriteBuffer_xf (s := { s with inputs := rest }) hlt value),
      Buffer.read_write_same .., fun j hj => Buffer.read_write_ne _ _ hj, rfl⟩
  · exact ⟨_, (step_writeBuf hi hb).trans (hostWriteBuffer_yf (s := { s with inputs := rest }) hlt value),
      Buffer.read_write_same .., fun j hj => Buffer.read_write_ne _ _ hj, rfl⟩

/-- A step that reads a written element returns it and changes nothing of the core. -/
theorem step_readBuf_of_some {s : State} {rest : List Input} {buf : BufferId} {index v : Nat}
    (h : s.inputs = .readBuf buf index :: rest) (hb : statusBusy s.status = false) (hlt : index < bufferSize s)
    (hv : readBuffer s buf index = some v) :
    step s = .next { s with inputs := rest, received := v :: s.received } :=
  (step_readBuf h hb).trans (hostReadBuffer_of_some (s := { s with inputs := rest }) hlt hv)

/-- Settles O11: each buffer's element as the number that the read finds. -/
theorem hostReadsElement : Obligations.HostReadsElement := by
  intro s rest index v b hb hlt
  refine ⟨fun hi hr => ?_, fun hi hr => ?_, fun hi hr => ?_, fun hi hr => ?_, fun hi hr => ?_⟩ <;>
    exact step_readBuf_of_some hi hb hlt (by simp [readBuffer, hr])

/-- Settles O12: each of the six accesses by the lemma that says what its operation refuses. -/
theorem hostAccessesWithoutMeaningAreRefused : Obligations.HostAccessesWithoutMeaningAreRefused := by
  intro s rest hb
  refine ⟨fun reg value h hi => ?_, fun reg h hi => ?_, fun buf index value h hi => ?_, fun buf index h hi => ?_,
    fun buf index h hn hi => ?_, fun buf index value h hbuf hi => ?_⟩
  · rw [step_writeReg hi hb (by omega), hostWriteRegister, writeRegister_eq_none _ h]
  · rw [step_readReg hi hb, hostReadRegister, readRegister_eq_none _ h]
  · exact (step_writeBuf hi hb).trans (hostWriteBuffer_outside (s := { s with inputs := rest }) h buf value)
  · exact (step_readBuf hi hb).trans (hostReadBuffer_outside (s := { s with inputs := rest }) h buf)
  · exact (step_readBuf hi hb).trans (hostReadBuffer_of_none (s := { s with inputs := rest }) h hn)
  · exact (step_writeBuf hi hb).trans (hostWriteBuffer_readOnly (s := { s with inputs := rest }) h hbuf value)

/-- Settles O14: the reset state's fields, read off. -/
theorem resetLeavesTheStatedState : Obligations.ResetLeavesTheStatedState :=
  ⟨⟨rfl, rfl, rfl, rfl, rfl, rfl, rfl, rfl, rfl, rfl, rfl, rfl, rfl, rfl, rfl⟩, fun _ => ⟨rfl, rfl, rfl, rfl, rfl⟩, rfl⟩

/-! ### The draw port (10_state.md R24; 30_encoding.md R76) -/

/-- The values the port delivers, while some are known. -/
theorem drawValue_of_queue {p : DrawPort} {n : Nat} {d : Word} (h : p.queue[n]? = some d) : drawValue p n = d := by
  simp [drawValue, h]

/-- After `m` draws the next ones follow in order. -/
theorem drawValue_drawAdvance (p : DrawPort) (m n : Nat) : drawValue (drawAdvance p m) n = drawValue p (m + n) := by
  simp only [drawValue, drawAdvance, List.getElem?_drop, Nat.add_assoc]

/-- Settles O40: what the port delivers, before and after `m` draws. -/
theorem drawsComeFromThePortInOrder : Obligations.DrawsComeFromThePortInOrder :=
  fun p n m => ⟨fun _ => drawValue_of_queue, drawValue_drawAdvance p m n, rfl⟩

/-- A line that is no command gives its accesses, and its values wait for the next command (30_encoding.md R76). -/
theorem scriptInputs_cons_of_not_command {l : ScriptLine} (h : l.isCommand = false) (stated : List Word)
    (rest : List ScriptLine) :
    scriptInputs stated (l :: rest) = l.accesses ++ scriptInputs (stated ++ l.draws) rest := by
  simp [scriptInputs, h]

/-- A command is preceded by what was stated for it, and nothing of it is left for a later one (30_encoding.md R76). -/
theorem scriptInputs_cons_of_command {c : ScriptLine} (h : c.isCommand = true) (stated : List Word)
    (rest : List ScriptLine) : scriptInputs stated (c :: rest) = .rnd stated :: (c.accesses ++ scriptInputs [] rest) := by
  simp [scriptInputs, h]

/-- The lines before a command give their accesses, then what they stated, all of it, then the command. -/
theorem scriptInputs_append_command {lines : List ScriptLine} {c : ScriptLine} (hl : ∀ l ∈ lines, l.isCommand = false)
    (hc : c.isCommand = true) (stated : List Word) (rest : List ScriptLine) :
    scriptInputs stated (lines ++ c :: rest) =
      lines.flatMap ScriptLine.accesses ++
        .rnd (stated ++ lines.flatMap ScriptLine.draws) :: (c.accesses ++ scriptInputs [] rest) := by
  induction lines generalizing stated with
  | nil => simp [scriptInputs_cons_of_command hc]
  | cons l lines ih =>
    obtain ⟨h, hl⟩ := List.forall_mem_cons.mp hl
    simp [scriptInputs_cons_of_not_command h, ih hl]

/-- Settles O58: where a program's statement about the port stands, and the two steps that perform it and the command. -/
theorem statedDrawsReachTheFollowingCommand : Obligations.StatedDrawsReachTheFollowingCommand := by
  refine ⟨fun stated lines rest c hl hc => scriptInputs_append_command hl hc stated rest, fun s ds w rest hi hb => ?_⟩
  exact ⟨_, step_rnd hi, step_command (s := stateDraws ds { s with inputs := .writeReg 0 w :: rest }) rfl hb⟩

/-! ### What a scalar command reads (10_state.md R16) -/

/-- Another `OPA` beside a scalar command's effect and its error gives another `OPA` beside its answer. -/
theorem scalar_withOpa {ne : Nat} {s t u : State}
    (h : (if neValid ne then complete u else raiseError .invalidFormat s) = .next t) (w : Word) :
    (if neValid ne then complete { u with opa := w } else raiseError .invalidFormat { s with opa := w }) =
      .next { t with opa := w } := by
  split_ifs at h ⊢ <;> injection h with h <;> rw [← h] <;> rfl

/-- Settles O50: the two commands see `OPA` through `opaByte` only. -/
theorem upperOpaBitsAreIgnored : Obligations.UpperOpaBitsAreIgnored := by
  intro ne s t w hw
  have hbyte : opaByte { s with opa := w } = opaByte s := hw
  refine ⟨fun h => ?_, fun h => ?_⟩
  · rw [exec, execDecode, hbyte]
    exact scalar_withOpa h w
  · rw [exec, execApproxMultiply, hbyte]
    exact scalar_withOpa h w

end Sys2Proof.Machine

/-! The encoding family (30_encoding.md): the command word and its term determine each other, the written forms assemble to
it, and the reserved rows only raise `IllegalCommand`. -/

namespace Sys2Proof

/-! ### The fields of a term and of a word (30_encoding.md R70, R71, R73) -/

/-- Every row's `op` fits the 4-bit field. -/
theorem opOf_lt (i : Instr) : opOf i < 16 := by
  cases i <;> simp [opOf]

/-- The reserved rows are those with `op` from 5 on (30_encoding.md R73). -/
theorem isReserved_iff (i : Instr) : i.isReserved = true ↔ 5 ≤ opOf i := by
  cases i <;> simp [Instr.isReserved, opOf]

@[simp] theorem decodeOp_opOf (i : Instr) : decodeOp (opOf i) i.ne = i := by
  cases i <;> rfl

@[simp] theorem ne_decodeOp (op ne : Nat) : (decodeOp op ne).ne = ne := by
  unfold decodeOp
  split <;> rfl

theorem ne_decodeWord (c : Byte) : (decodeWord c).ne = neField c := ne_decodeOp ..

theorem neField_lt (c : Byte) : neField c < 16 := by
  have hc : c.toNat < 256 := c.isLt
  rw [neField]
  omega

theorem wellFormed_decodeWord (c : Byte) : (decodeWord c).WellFormed := by
  rw [Instr.WellFormed, ne_decodeWord]
  exact neField_lt c

/-- The two fields put together again give the word, `(ne << 4) | op` (30_encoding.md R75). -/
theorem ofNat_fields (c : Byte) : BitVec.ofNat 8 (neField c * 16 + opField c) = c := by
  rw [neField, opField, Nat.div_add_mod', BitVec.ofNat_toNat, BitVec.setWidth_eq]

/-! ### Decoding and encoding undo each other -/

theorem decodeWord_encodeWord {i : Instr} (h : i.WellFormed) : decodeWord (encodeWord i) = i := by
  obtain ⟨hne, hop⟩ := Laws.EncodedFields.of_opOf (opOf_lt i) h
  rw [decodeWord, hne, hop, decodeOp_opOf]

theorem encodeWord_decodeWord (c : Byte) : encodeWord (decodeWord c) = c := by
  apply BitVec.eq_of_toNat_eq
  rw [Laws.EncodedFields.encodeWord_toNat (wellFormed_decodeWord c) (opOf_lt _), ne_decodeWord,
    Machine.opOf_decodeWord, neField, Nat.div_add_mod']

/-- Settles O1: the word's two fields are the term's, and they select the term again. -/
theorem decodeInvertsEncode : Obligations.DecodeInvertsEncode := by
  intro i rest h
  rw [encode, List.singleton_append, decode, decodeWord_encodeWord h]

/-- Settles O2: the term is `decodeWord c`. -/
theorem everyWordEncodesItsDecoding : Obligations.EveryWordEncodesItsDecoding := by
  intro c rest
  refine ⟨decodeWord c, rfl, wellFormed_decodeWord c, ?_, ne_decodeWord c, Machine.opOf_decodeWord c, ?_⟩
  · rw [encode, encodeWord_decodeWord]
  · rw [isReserved_iff, Machine.opOf_decodeWord]

/-- Settles O3: seven evaluations of the decoder. -/
theorem writtenOutWordsDecode : Obligations.WrittenOutWordsDecode := ⟨rfl, rfl, rfl, rfl, rfl, rfl, rfl⟩

end Sys2Proof

namespace Sys2Proof.Machine

/-! ### The written forms of commands (30_encoding.md R75) -/

/-- A name with a 4-bit `op` assembles to `(ne << 4) | op`. -/
theorem assemble_of_opNamed {n : String} {op ne : Nat} (hn : opNamed n = some op) (hop : op < 16) (hne : ne < 16) :
    assemble n ne = some (BitVec.ofNat 8 (ne * 16 + op)) := by
  rw [assemble, if_pos hne, hn, Option.map_some, ← Nat.shiftLeft_add_eq_or_of_lt hop, Nat.shiftLeft_eq]

/-- A row's mnemonic names the row's `op`. -/
theorem opNamed_of_mnemonic {i : Instr} {n : String} (h : mnemonic i = some n) : opNamed n = some (opOf i) := by
  cases i <;> cases h <;> rfl

/-- All of a list's names assemble when each of them names the `op`. -/
theorem assemble_of_names {names : List String} {op ne : Nat} (hn : ∀ n ∈ names, opNamed n = some op) (hop : op < 16)
    (hne : ne < 16) : ∀ n ∈ names, assemble n ne = some (BitVec.ofNat 8 (ne * 16 + op)) :=
  fun n h => assemble_of_opNamed (hn n h) hop hne

/-- Settles O4: the names by their `op` values; a word's mnemonic names its `op`, and its two fields make the word. -/
theorem writtenCommandsAssemble : Obligations.WrittenCommandsAssemble := by
  refine ⟨fun ne hne => ⟨?_, ?_, ?_, ?_, ?_⟩, fun c n h => ?_⟩
  case refine_6 =>
    rw [assemble_of_opNamed (opNamed_of_mnemonic h) (opOf_lt _) (neField_lt c), opOf_decodeWord]
    exact congrArg some (ofNat_fields c)
  all_goals exact assemble_of_names (by decide) (by decide) hne

/-! ### Reserved words (30_encoding.md R73; 60_exceptions.md R185, R190) -/

/-- Every reserved row's meaning is to raise `IllegalCommand`, whatever its `ne`. -/
theorem exec_of_isReserved {i : Instr} (h : i.isReserved = true) (s : State) : exec i s = raiseError .illegalCommand s := by
  cases i with
  | downcast | downcastMatrix | decode | approxMultiply | approxMatmul => cases h
  | _ => rfl

/-- Settles O7: an error's entry writes its code into `STATUS` and nothing else. -/
theorem reservedRowsRaiseIllegalCommand : Obligations.ReservedRowsRaiseIllegalCommand :=
  fun _ s h => exec_of_isReserved h s

/-- Settles O6: the word written to `CMD` decodes to a reserved row, whose completion is `reservedRowsRaiseIllegalCommand`. -/
theorem reservedWordOnlySetsErr : Obligations.ReservedWordOnlySetsErr := by
  refine ⟨rfl, fun s w rest hi hb h5 => ?_⟩
  have hres : (decodeWord (BitVec.ofNat 8 w)).isReserved = true := by
    rwa [isReserved_iff, ← opOf_commandWord rfl]
  rw [step_command hi hb]
  exact reservedRowsRaiseIllegalCommand _ _ hres

end Sys2Proof.Machine

/-! The quantizer family (40_quantizer.md): the nine steps as numbers, when the draw rounds up and how often, and what the
two commands leave. -/

namespace Sys2Proof.Machine

/-! ### The paths and the target exponent (40_quantizer.md R102 to R107) -/

/-- A rebiased exponent below 1 is an exponent of at most 0, so the subnormal shift is at least 1. -/
theorem unbiasedExp_nonpos_of_rebiasedExp {v : Word} {ne : Nat} (h : rebiasedExp v ne < 1) : unbiasedExp v ≤ 0 := by
  rw [rebiasedExp] at h
  omega

theorem targetExp_eq (v : Word) (ne : Nat) :
    targetExp v ne = if rebiasedExp v ne < 1 then 0 else if rebiasedExp v ne ≥ 2 ^ ne then expMax ne
      else (rebiasedExp v ne).toNat := by
  unfold targetExp quantPath
  split_ifs <;> rfl

theorem workMantissa_eq (v : Word) (ne : Nat) :
    workMantissa v ne = if rebiasedExp v ne < 1 then (fp32Man v ||| 0x800000) / 2 ^ (1 - unbiasedExp v).toNat
      else if rebiasedExp v ne ≥ 2 ^ ne then 0x7FFFFF else fp32Man v := by
  unfold workMantissa quantPath
  split_ifs <;> simp only [Nat.shiftRight_eq_div_pow]

/-- The target exponent of each path; on the paths other than the subnormal one it lies from 1 to `EMAX`. -/
theorem targetExp_cases {v : Word} {ne : Nat} (h1 : 1 ≤ ne) :
    (quantPath v ne = .subnormal ∧ targetExp v ne = 0) ∨
    (quantPath v ne = .overflow ∧ targetExp v ne = 2 ^ ne - 1 ∧ 1 ≤ 2 ^ ne - 1) ∨
    (quantPath v ne = .inRange ∧ (targetExp v ne : Int) = rebiasedExp v ne ∧ 1 ≤ targetExp v ne ∧
      targetExp v ne ≤ 2 ^ ne - 1) := by
  have h2 : 2 ^ 1 ≤ 2 ^ ne := Nat.pow_le_pow_right (by norm_num) h1
  have hcast : ((2 ^ ne : Nat) : Int) = 2 ^ ne := by norm_cast
  rw [targetExp_eq, quantPath, expMax]
  split_ifs with hs ho
  · exact .inl ⟨rfl, rfl⟩
  · exact .inr (.inl ⟨rfl, rfl, by omega⟩)
  · exact .inr (.inr ⟨rfl, by omega, by omega, by omega⟩)

/-- The target exponent fits the exponent field (40_quantizer.md R107). -/
theorem targetExp_lt (v : Word) {ne : Nat} (h1 : 1 ≤ ne) : targetExp v ne < 2 ^ ne := by
  have hpos : 0 < 2 ^ ne := by positivity
  rcases targetExp_cases (v := v) h1 with ⟨-, he⟩ | ⟨-, he, -⟩ | ⟨-, -, -, he⟩ <;> omega

/-- The working mantissa has at most 23 bits on each path (40_quantizer.md R107). -/
theorem workMantissa_lt (v : Word) (ne : Nat) : workMantissa v ne < 2 ^ 23 := by
  rw [workMantissa_eq]
  have hm := fp32Man_lt v
  split_ifs with hs
  · have hor : fp32Man v ||| 0x800000 < 2 ^ 24 := Nat.or_lt_two_pow (by omega) (by norm_num)
    have hshift : 2 ^ 1 ≤ 2 ^ (1 - unbiasedExp v).toNat :=
      Nat.pow_le_pow_right (by norm_num) (by have := unbiasedExp_nonpos_of_rebiasedExp hs; omega)
    rw [Nat.div_lt_iff_lt_mul (by omega)]
    omega
  · norm_num
  · exact hm

/-- Step 5 is the identity on the target exponent of the path (40_quantizer.md R106). -/
theorem clampExp_targetExp (v : Word) {ne : Nat} (h1 : 1 ≤ ne) :
    clampExp (quantPath v ne) ne (targetExp v ne) = targetExp v ne := by
  rcases targetExp_cases (v := v) h1 with ⟨hp, -⟩ | ⟨hp, he, h⟩ | ⟨hp, -, hlo, hhi⟩
  · rw [hp, clampExp]
  · rw [hp, clampExp, expMax, he]
    omega
  · rw [hp, clampExp, expMax]
    omega

/-- Settles O30: each path's target exponent, and the bound of the working mantissa. -/
theorem clampChangesNothing : Obligations.ClampChangesNothing := by
  intro v ne h1 _
  refine ⟨clampExp_targetExp v h1, ?_⟩
  have hw : workMantissa v ne ≤ 0x7FFFFF := Nat.le_of_lt_succ (workMantissa_lt v ne)
  rcases targetExp_cases (v := v) h1 with ⟨hp, he⟩ | ⟨hp, he, h⟩ | ⟨hp, he, hlo, hhi⟩
  · simp [hp, he, hw]
  · have hne : 2 ^ ne - 1 ≠ 0 := by omega
    simp [hp, he, hw, hne]
  · have hne : targetExp v ne ≠ 0 := by omega
    simp [hp, he, hw, hne, hhi]

/-! ### Rounding by the draw (40_quantizer.md R108 to R110) -/

theorem truncShift_eq {ne : Nat} (h6 : ne ≤ 6) : truncShift ne = 16 + ne := by
  rw [truncShift, manWidth]
  omega

theorem roundsUp_iff (ne w : Nat) (d : Word) :
    roundsUp ne w d = true ↔ drawTop ne d < truncRemainder ne w ∧ truncMantissa ne w ≠ manMax ne := by
  simp [roundsUp]

/-- The increment as a bound of the whole draw: the low `32 - sh` bits of the draw do not matter. -/
theorem roundsUp_iff_draw_lt {ne : Nat} (h6 : ne ≤ 6) (w : Nat) (d : Word) :
    roundsUp ne w d = true ↔
      d.toNat < w % 2 ^ (16 + ne) * 2 ^ (16 - ne) ∧ w / 2 ^ (16 + ne) ≠ 2 ^ (7 - ne) - 1 := by
  rw [roundsUp_iff, drawTop, truncRemainder, truncMantissa, truncShift_eq h6, show 32 - (16 + ne) = 16 - ne by omega,
    Nat.shiftRight_eq_div_pow, Nat.shiftRight_eq_div_pow, Nat.div_lt_iff_lt_mul (by positivity), manMax, manWidth]

theorem two_pow_truncShift_mul {ne : Nat} (h6 : ne ≤ 6) : 2 ^ (16 + ne) * 2 ^ (16 - ne) = 2 ^ 32 := by
  rw [← pow_add, show 16 + ne + (16 - ne) = 32 by omega]

/-- Settles O32: the bound of the draw, both sides divided by `2^32 = 2^sh * 2^(32 - sh)`. -/
theorem roundsUpBelowTheDiscardedFraction : Obligations.RoundsUpBelowTheDiscardedFraction := by
  intro ne w d _ h6
  have h32 : (2 : ℚ) ^ 32 = 2 ^ (16 - ne) * 2 ^ (16 + ne) := by
    exact_mod_cast (two_pow_truncShift_mul h6).symm.trans (Nat.mul_comm ..)
  rw [roundsUp_iff_draw_lt h6, h32, ← div_div, div_lt_div_iff_of_pos_right (by positivity), div_lt_iff₀ (by positivity)]
  norm_cast

/-- Settles O33: the draws that round up are the numbers below `rem * 2^(32 - sh)`. -/
theorem countOfDrawsThatRoundUp : Obligations.CountOfDrawsThatRoundUp := by
  intro ne w _ h6 hmax
  have hle : w % 2 ^ (16 + ne) * 2 ^ (16 - ne) ≤ 2 ^ 32 := by
    rw [← two_pow_truncShift_mul h6]
    exact Nat.mul_le_mul_right _ (Nat.mod_lt _ (by positivity)).le
  have hdraws : (Finset.range (2 ^ 32)).filter (fun d => roundsUp ne w (BitVec.ofNat 32 d) = true) =
      Finset.range (w % 2 ^ (16 + ne) * 2 ^ (16 - ne)) := by
    ext d
    rw [Finset.mem_filter, Finset.mem_range, Finset.mem_range, roundsUp_iff_draw_lt h6, BitVec.toNat_ofNat]
    constructor
    · rintro ⟨hd, h, -⟩
      rwa [Nat.mod_eq_of_lt hd] at h
    · intro h
      have hd : d < 2 ^ 32 := h.trans_le hle
      exact ⟨hd, by rwa [Nat.mod_eq_of_lt hd], hmax⟩
  rw [hdraws, Finset.card_range]

/-- The increment never leaves the mantissa field, since its guard excludes the largest mantissa. -/
theorem roundMantissa_lt {ne w : Nat} (h6 : ne ≤ 6) (hw : w < 2 ^ 23) (d : Word) :
    roundMantissa ne w d < 2 ^ manWidth ne := by
  have ht : truncMantissa ne w < 2 ^ manWidth ne := by
    rw [truncMantissa, Nat.shiftRight_eq_div_pow, Nat.div_lt_iff_lt_mul (by positivity), ← pow_add, truncShift,
      manWidth, show 7 - ne + (23 - (7 - ne)) = 23 by omega]
    exact hw
  rw [roundMantissa]
  split_ifs with hup
  · have hne := ((roundsUp_iff ..).mp hup).2
    rw [manMax] at hne
    omega
  · exact ht

/-- Step 8 does nothing to a mantissa that fits its field (40_quantizer.md R110). -/
theorem carryMantissa_of_lt {ne t : Nat} (et : Nat) (ht : t < 2 ^ manWidth ne) : carryMantissa ne et t = (et, t) :=
  if_neg (by rw [manMax]; omega)

/-! ### The byte as a number (40_quantizer.md R111, R112) -/

/-- Fields that keep their widths do not overlap, so the union of their bits is their sum. -/
theorem composeByte_toNat (s : BitVec 1) {ne et t : Nat} (h6 : ne ≤ 6) (het : et < 2 ^ ne) (ht : t < 2 ^ manWidth ne) :
    (composeByte s ne et t).toNat = s.toNat * 2 ^ 7 + et * 2 ^ manWidth ne + t := by
  have hlow : et * 2 ^ manWidth ne + t < 2 ^ 7 := by
    calc et * 2 ^ manWidth ne + t < (et + 1) * 2 ^ manWidth ne := by rw [Nat.add_one_mul]; omega
      _ ≤ 2 ^ ne * 2 ^ manWidth ne := Nat.mul_le_mul_right _ het
      _ = 2 ^ 7 := by rw [← pow_add, manWidth, Nat.add_sub_of_le (by omega)]
  have hs := s.isLt
  rw [composeByte, BitVec.toNat_ofNat, Nat.or_assoc, ← Nat.shiftLeft_add_eq_or_of_lt ht, Nat.shiftLeft_eq et,
    ← Nat.shiftLeft_add_eq_or_of_lt hlow, Nat.shiftLeft_eq]
  omega

/-- The quantizer without the two steps that change nothing (40_quantizer.md R112). -/
theorem downcast_eq_composeByte (v : Word) {ne : Nat} (d : Word) (h1 : 1 ≤ ne) (h6 : ne ≤ 6) :
    downcast v ne d = composeByte (fp32Sign v) ne (targetExp v ne) (roundMantissa ne (workMantissa v ne) d) := by
  simp only [downcast, clampExp_targetExp v h1, carryMantissa_of_lt _ (roundMantissa_lt h6 (workMantissa_lt v ne) d)]

/-- The byte by its three parts: the sign, the target exponent and the rounded mantissa. -/
theorem downcast_toNat (v : Word) {ne : Nat} (d : Word) (h1 : 1 ≤ ne) (h6 : ne ≤ 6) :
    (downcast v ne d).toNat =
      v.toNat / 2 ^ 31 * 2 ^ 7 + targetExp v ne * 2 ^ manWidth ne + roundMantissa ne (workMantissa v ne) d := by
  rw [downcast_eq_composeByte v d h1 h6, composeByte_toNat _ h6 (targetExp_lt v h1)
    (roundMantissa_lt h6 (workMantissa_lt v ne) d), fp32Sign_toNat]

/-- `re` by the pattern's exponent field (40_quantizer.md R102). -/
theorem rebiasedExp_eq (v : Word) (ne : Nat) :
    rebiasedExp v ne = ((v.toNat / 2 ^ 23 % 256 : Nat) - 127 : Int) + (2 ^ (ne - 1) - 1) := by
  rw [rebiasedExp, unbiasedExp, fp32Exp_eq, bias, Nat.cast_sub Nat.one_le_two_pow]
  push_cast
  rfl

/-- The rounded mantissa by quotient and remainder (40_quantizer.md R108, R109). -/
theorem roundMantissa_eq (ne w : Nat) (d : Word) :
    roundMantissa ne w d = w / 2 ^ truncShift ne +
      if d.toNat / 2 ^ (32 - truncShift ne) < w % 2 ^ truncShift ne ∧ w / 2 ^ truncShift ne ≠ 2 ^ manWidth ne - 1
        then 1 else 0 := by
  simp only [roundMantissa, roundsUp_iff, drawTop, truncMantissa, truncRemainder, manMax, Nat.shiftRight_eq_div_pow]

/-- Settles O29: the byte's three parts, each by the raw fields of the input and the draw. -/
theorem downcastIsTheNineSteps : Obligations.DowncastIsTheNineSteps := by
  intro v ne d h1 h6 nm sh ue re m23 et w t up
  have hre : rebiasedExp v ne = re := rebiasedExp_eq v ne
  have hue : unbiasedExp v = ue := by rw [unbiasedExp, fp32Exp_eq]
  have het : targetExp v ne = et := by rw [targetExp_eq, hre]; rfl
  have hw : workMantissa v ne = w := by rw [workMantissa_eq, hre, hue, fp32Man_eq]
  have ht : roundMantissa ne (workMantissa v ne) d = t + up := by rw [roundMantissa_eq, hw]; rfl
  rw [← het, ← ht]
  exact ⟨downcast_toNat v d h1 h6, roundMantissa_lt h6 (workMantissa_lt v ne) d, targetExp_lt v h1⟩

/-! ### The two commands (40_quantizer.md R100, R121, R122) -/

/-- Settles O39: the operation under a valid `ne`, its byte extended by zeros. -/
theorem downcastCompletes : Obligations.DowncastCompletes := by
  intro ne s h1 h6
  rw [exec, execDowncast, if_pos ((neValid_iff ne).mpr ⟨h1, h6⟩), setWidth_eq_zero_append]
  rfl

/-- A `DOWNCAST_MATRIX` on a non-empty X under a valid `ne` meets no error (60_exceptions.md R187). -/
theorem firstError_downcastMatrix_eq_none {ne : Nat} {s : State} (h1 : 1 ≤ ne) (h6 : ne ≤ 6) (hr : s.xrows ≠ 0)
    (hc : s.xcols ≠ 0) : firstError (.downcastMatrix ne) s = none := by
  simp [firstError, hr, hc, h1, h6]

/-- Settles O41: the loop over the written elements answers, and `quantizeLoop_reads` says what it wrote. -/
theorem downcastMatrixCompletes : Obligations.DowncastMatrixCompletes := by
  intro ne s x h1 h6 hr hc hx
  obtain ⟨q, hq⟩ := quantizeLoop_ok_of_written (id := .xf) (dst := s.xq) (ne := ne) (p := s.rnd) (base := 0)
    fun k hk => ⟨x k, hx k hk⟩
  obtain ⟨hin, hout⟩ := quantizeLoop_reads hq
  refine ⟨_, exec_downcastMatrix_complete (firstError_downcastMatrix_eq_none h1 h6 hr hc) hq, fun k hk => ?_, hout, rfl⟩
  obtain ⟨v, hv, hqk⟩ := hin k hk
  obtain rfl : x k = v := Option.some.inj ((hx k hk).symm.trans hv)
  rwa [Nat.zero_add] at hqk

end Sys2Proof.Machine

/-! The L-Mul family (41_lmul.md): the decoded tuple by the byte's fields, the value a byte stands for, and the value,
the exponent field and the sign of an approximate product. -/

namespace Sys2Proof.Machine

/-! ### The decoded tuple and the reconstructed value (41_lmul.md R131 to R133, R136) -/

theorem opaByte_toNat (s : State) : (opaByte s).toNat = s.opa.toNat % 256 := by
  simp [opaByte, BitVec.extractLsb'_toNat]

@[simp] theorem decodeFp8_sign (b : Byte) (ne : Nat) : (decodeFp8 b ne).sign = fp8Sign b := rfl

/-- The decoded exponent by the byte's exponent field (41_lmul.md R132, R133). -/
theorem decodeFp8_exp_eq (b : Byte) (ne : Nat) :
    (decodeFp8 b ne).exp =
      if fp8Exp b ne = 0 then 0 else (fp8Exp b ne : Int) - (2 ^ (ne - 1) - 1) := by
  rw [decodeFp8, bias, Nat.cast_sub Nat.one_le_two_pow]
  push_cast
  rfl

/-- `DECODE` with a valid `ne` answers its effect and `ERR` 0 (41_lmul.md R130). -/
theorem exec_decode_of_valid {ne : Nat} (h1 : 1 ≤ ne) (h6 : ne ≤ 6) (s : State) :
    exec (.decode ne) s = .next (endCommand .ok { s with
      dsign := (decodeFp8 (opaByte s) ne).sign
      dexp := BitVec.ofInt 8 (decodeFp8 (opaByte s) ne).exp
      dfrac := BitVec.ofNat 6 (scale64 ne (decodeFp8 (opaByte s) ne).frac)
      dsig := BitVec.ofNat 7 (scale64 ne (decodeFp8 (opaByte s) ne).sig) }) := by
  rw [exec, execDecode, if_pos ((neValid_iff ne).mpr ⟨h1, h6⟩), complete]

/-- Settles O43: each register by its own lemma, the byte's fields as quotients and remainders of `OPA mod 256`. -/
theorem decodeCompletes : Obligations.DecodeCompletes := by
  intro ne s h1 h6 b ef mf
  have hef : fp8Exp (opaByte s) ne = ef := by rw [fp8Exp_eq, opaByte_toNat, manWidth]
  have hmf : fp8Man (opaByte s) ne = mf := by rw [fp8Man_eq, opaByte_toNat, manWidth]
  refine ⟨_, exec_decode_of_valid h1 h6 s, ?_, ?_, ?_, ?_, rfl⟩
  · exact (fp8Sign_toNat _).trans (by rw [opaByte_toNat])
  · exact (dexp_toInt _ h1 h6).trans (by rw [decodeFp8_exp_eq, hef])
  · exact (dfrac_toNat _ h1 h6).trans (by rw [hmf])
  · exact (dsig_toNat _ h1 h6).trans (by rw [hef, hmf])

/-- `M` of a byte as a rational: `1 + f` with a nonzero exponent field, else 0 (41_lmul.md R132, R133). -/
theorem sigVal_eq (b : Byte) (ne : Nat) :
    sigVal b ne = if fp8Exp b ne = 0 then 0 else 1 + (fp8Man b ne : ℚ) / 2 ^ manWidth ne := by
  dsimp only [sigVal, decodeFp8]
  split_ifs
  · simp
  · push_cast
    rw [add_div, div_self (by positivity)]

/-- Settles O45: `M` and `E` by the exponent field, in R136's formula. -/
theorem reconstructedValueOfEachByte : Obligations.ReconstructedValueOfEachByte := by
  intro b ne _ _
  have hef : b.toNat / 2 ^ (7 - ne) % 2 ^ ne = fp8Exp b ne := (fp8Exp_eq b).symm
  have hmf : b.toNat % 2 ^ (7 - ne) = fp8Man b ne := (fp8Man_eq b ne).symm
  rw [hef, hmf, recon, sigVal_eq, decodeFp8_exp_eq]
  refine ⟨fun h0 => ?_, fun h0 => ?_⟩
  · rw [if_pos h0, mul_zero, zero_mul]
  · rw [if_neg h0, if_neg h0, decodeFp8_sign, fp8Sign_toNat, manWidth]

/-! ### The product (41_lmul.md R140 to R145) -/

/-- Settles O46: the operation under a valid `ne`. -/
theorem approxMultiplyCompletes : Obligations.ApproxMultiplyCompletes := by
  intro ne s h1 h6
  rw [exec, execApproxMultiply, if_pos ((neValid_iff ne).mpr ⟨h1, h6⟩)]
  rfl

theorem corrExp_le (ne : Nat) : corrExp ne ≤ manWidth ne := by
  unfold corrExp
  split_ifs <;> omega

/-- `A` in its own unit: `1 + fx + fy + 2^-lm` (41_lmul.md R143). -/
theorem mantissaSum_div (bx bY : Byte) (ne : Nat) :
    (mantissaSum bx bY ne : ℚ) / 2 ^ manWidth ne = 1 + fracVal bx ne + fracVal bY ne + 1 / 2 ^ corrExp ne := by
  have hcorr : (2 : ℚ) ^ (manWidth ne - corrExp ne) / 2 ^ manWidth ne = 1 / 2 ^ corrExp ne := by
    rw [pow_sub₀ _ two_ne_zero (corrExp_le ne)]
    field_simp
  rw [← hcorr, mantissaSum, fracVal, fracVal]
  push_cast
  field_simp

/-- The carry names the binade `A` lies in, from below. -/
theorem two_pow_le_mantissaSum (bx bY : Byte) (ne : Nat) :
    2 ^ (manWidth ne + mantissaCarry bx bY ne) ≤ mantissaSum bx bY ne := by
  unfold mantissaCarry
  split_ifs with h
  · exact h
  · rw [mantissaSum, add_zero, add_assoc, add_assoc]
    exact Nat.le_add_right _ _

/-- `1 + F32 / 2^23` is `A` scaled to its binade: the shift of R145 loses nothing. -/
theorem one_add_productMan (bx bY : Byte) (ne : Nat) :
    1 + (productMan bx bY ne : ℚ) / 2 ^ 23 = mantissaSum bx bY ne / 2 ^ manWidth ne / 2 ^ mantissaCarry bx bY ne := by
  have hc := mantissaCarry_le bx bY ne
  have hfit : manWidth ne + mantissaCarry bx bY ne ≤ 23 := by
    unfold manWidth
    omega
  rw [productMan, Nat.shiftLeft_eq, Nat.sub_sub, Nat.cast_mul, Nat.cast_sub (two_pow_le_mantissaSum bx bY ne)]
  push_cast
  rw [pow_sub₀ _ two_ne_zero hfit, div_div, ← pow_add]
  field_simp
  ring

/-- The sign of a product as a factor (41_lmul.md R141). -/
theorem neg_one_pow_xor (x y : BitVec 1) : (-1 : ℚ) ^ (x ^^^ y).toNat = if x = y then 1 else -1 := by
  rcases BitVec.eq_zero_or_eq_one x with rfl | rfl <;> rcases BitVec.eq_zero_or_eq_one y with rfl | rfl <;> simp

/-- The carry that `E32` adds is the one `F32` divides by (41_lmul.md R145): the product's magnitude is `A` times the
power of two of the exponents' sum. -/
theorem product_magnitude (bx bY : Byte) (ne : Nat) :
    (2 : ℚ) ^ (productExp bx bY ne - 127) * (1 + productMan bx bY ne / 2 ^ 23) =
      mantissaSum bx bY ne / 2 ^ manWidth ne * (2 : ℚ) ^ ((decodeFp8 bx ne).exp + (decodeFp8 bY ne).exp) := by
  have hbinade : productExp bx bY ne - 127 =
      (decodeFp8 bx ne).exp + (decodeFp8 bY ne).exp + (mantissaCarry bx bY ne : ℤ) := by
    rw [productExp]
    ring
  rw [one_add_productMan, hbinade, zpow_add₀ two_ne_zero, zpow_natCast]
  field_simp

/-- Settles O47: a product is a normal number, so its fields give sign and magnitude, and `A` is R144's sum. -/
theorem productIsExact : Obligations.ProductIsExact := by
  intro bx bY ne h1 h6 lm
  have hexp := fp32Exp_approxMultiply bx bY h1 h6
  obtain ⟨hlow, -, -⟩ := productExp_bounds bx bY h1 h6
  have hnormal : fp32Exp (approxMultiply bx bY ne) ≠ 0 := by omega
  have hlm : corrExp ne = lm := rfl
  rw [val32, if_neg hnormal, hexp, fp32Man_approxMultiply bx bY h1 h6, fp32Sign_approxMultiply, neg_one_pow_xor,
    product_magnitude, mantissaSum_div, hlm, decodeFp8_sign, decodeFp8_sign, mul_assoc]

/-- Settles O48: the bounds of `E32`, and the sign bit of the pattern. -/
theorem productIsNormal : Obligations.ProductIsNormal := by
  intro bx bY ne h1 h6
  have hexp := fp32Exp_approxMultiply bx bY h1 h6
  obtain ⟨hlow, hup, -⟩ := productExp_bounds bx bY h1 h6
  refine ⟨by omega, by omega, ?_⟩
  have hsign := congrArg (·.getLsbD 0) (fp32Sign_approxMultiply bx bY ne)
  simpa [fp32Sign, fp8Sign] using hsign

end Sys2Proof.Machine

/-! The matrix product family (42_matmul.md): what `APPROX_MATMUL` writes when it completes, loop by loop. -/

namespace Sys2Proof.Machine

/-! ### The phases on elements with known values (42_matmul.md R162, R163) -/

/-- Quantizing elements of known values answers, and byte `k` is element `k` under the draw numbered `base + k`. -/
theorem quantizeLoop_of_values {id : BufferId} {src : Buffer 32} {v : Nat → Word} {n : Nat}
    (h : ∀ k < n, src.read k = some (v k)) (dst : Buffer 8) (ne : Nat) (p : DrawPort) (base : Nat) :
    ∃ q, quantizeLoop id src dst ne p base n = .ok q ∧
      (∀ k < n, q.read k = some (downcast (v k) ne (drawValue p (base + k)))) ∧ ∀ k, n ≤ k → q.read k = dst.read k := by
  obtain ⟨q, hq⟩ := quantizeLoop_ok_of_written (id := id) (dst := dst) (ne := ne) (p := p) (base := base)
    fun k hk => ⟨v k, h k hk⟩
  obtain ⟨hin, hout⟩ := quantizeLoop_reads hq
  refine ⟨q, hq, fun k hk => ?_, hout⟩
  obtain ⟨u, hu, hqk⟩ := hin k hk
  obtain rfl : v k = u := Option.some.inj ((h k hk).symm.trans hu)
  exact hqk

theorem matrixIndex_div {n j : Nat} (hj : j < n) (i : Nat) : matrixIndex n i j / n = i := by
  rw [matrixIndex, Nat.mul_comm, Nat.mul_add_div (by omega), Nat.div_eq_of_lt hj, Nat.add_zero]

theorem matrixIndex_mod {n j : Nat} (hj : j < n) (i : Nat) : matrixIndex n i j % n = j := by
  rw [matrixIndex, Nat.mul_add_mod_self_right, Nat.mod_eq_of_lt hj]

/-- Element `(i, j)` of the product of the byte matrices `x` (with `kk` columns) and `y` (with `n`), as R163 writes it. -/
def productElement (x y : Nat → Byte) (ne kk n i j : Nat) : Word :=
  sumAscending (fun k => approxMultiply (x (matrixIndex kk i k)) (y (matrixIndex n k j)) ne) kk

/-- The accumulation of element `(i, j)` over matrices of known bytes is its ascending sum. -/
theorem macLoop_eq_productElement {xq yq : Buffer 8} {x y : Nat → Byte} {m kk n i j : Nat}
    (hx : ∀ p < m * kk, xq.read p = some (x p)) (hy : ∀ q < kk * n, yq.read q = some (y q)) (ne : Nat) (hi : i < m)
    (hj : j < n) : macLoop xq yq ne kk n i j kk = .ok (productElement x y ne kk n i j) :=
  macLoop_eq (acc := sumAscending _) (fun _ hl => hx _ (matrixIndex_lt hi hl)) (fun _ hl => hy _ (matrixIndex_lt hl hj))
    rfl fun _ => rfl

/-- The output loop over matrices of known bytes writes the product, row by row, and nothing beyond it. -/
theorem productLoop_of_values {xq yq : Buffer 8} {x y : Nat → Byte} {m kk n : Nat}
    (hx : ∀ p < m * kk, xq.read p = some (x p)) (hy : ∀ q < kk * n, yq.read q = some (y q)) (zf : Buffer 32) (ne : Nat) :
    ∃ b, productLoop xq yq zf ne kk n (m * n) = .ok b ∧
      (∀ i < m, ∀ j < n, b.read (matrixIndex n i j) = some (productElement x y ne kk n i j)) ∧
      ∀ p, m * n ≤ p → b.read p = zf.read p := by
  have hmac : ∀ p < m * n, macLoop xq yq ne kk n (p / n) (p % n) kk = .ok (productElement x y ne kk n (p / n) (p % n)) := by
    intro p hp
    have hn : 0 < n := Nat.pos_of_mul_pos_left (Nat.zero_lt_of_lt hp)
    exact macLoop_eq_productElement hx hy ne ((Nat.div_lt_iff_lt_mul hn).mpr hp) (Nat.mod_lt p hn)
  obtain ⟨b, hb, hin, hout⟩ := productLoop_ok (zf := zf) hmac
  refine ⟨b, hb, fun i hi j hj => ?_, hout⟩
  have hread := hin _ (matrixIndex_lt hi hj)
  rwa [matrixIndex_div hj, matrixIndex_mod hj] at hread

/-! ### The command (42_matmul.md R160, R164) -/

/-- An `APPROX_MATMUL` on non-empty matrices of matching dimensions under a valid `ne` meets no error (60_exceptions.md
R187). -/
theorem firstError_approxMatmul_eq_none {ne : Nat} {s : State} (h1 : 1 ≤ ne) (h6 : ne ≤ 6) (hr : s.xrows ≠ 0)
    (hc : s.xcols ≠ 0) (hyc : s.ycols ≠ 0) (hd : s.xcols = s.yrows) : firstError (.approxMatmul ne) s = none := by
  have hyr : s.yrows ≠ 0 := hd ▸ hc
  simp [firstError, ShapeEmpty, hr, hyr, hyc, hd, h1, h6]

/-- `APPROX_MATMUL` that passed its tests and whose three loops answered. -/
theorem exec_approxMatmul_complete {ne : Nat} {s : State} {xq yq : Buffer 8} {zf : Buffer 32}
    (h : firstError (.approxMatmul ne) s = none)
    (hx : quantizeLoop .xf s.xf s.xq ne s.rnd 0 (s.xrows * s.xcols) = .ok xq)
    (hy : quantizeLoop .yf s.yf s.yq ne s.rnd (s.xrows * s.xcols) (s.yrows * s.ycols) = .ok yq)
    (hz : productLoop xq yq s.zf ne s.xcols s.ycols (s.xrows * s.ycols) = .ok zf) :
    exec (.approxMatmul ne) s = complete { s with
      xq := xq
      yq := yq
      zf := zf
      zrows := s.xrows
      zcols := s.ycols
      rnd := drawAdvance s.rnd (s.xrows * s.xcols + s.yrows * s.ycols) } := by
  simp only [exec_approxMatmul_of_noError h, multiplyMatrices, hx, hy, hz]

/-- Settles O56: past its tests the command is its three loops, and each says what it wrote and what it left. -/
theorem approxMatmulCompletes : Obligations.ApproxMatmulCompletes := by
  intro ne s x y h1 h6 hr hc hyc hd hx hy xb yb
  obtain ⟨xq, hxq, hxin, hxout⟩ := quantizeLoop_of_values (id := .xf) hx s.xq ne s.rnd 0
  obtain ⟨yq, hyq, hyin, hyout⟩ := quantizeLoop_of_values (id := .yf) hy s.yq ne s.rnd (s.xrows * s.xcols)
  simp only [Nat.zero_add] at hxin
  have hyin' : ∀ q < s.xcols * s.ycols, yq.read q = some (yb q) := hd ▸ hyin
  obtain ⟨zf, hzf, hzin, hzout⟩ := productLoop_of_values (x := xb) hxin hyin' s.zf ne
  have hnone := firstError_approxMatmul_eq_none h1 h6 hr hc hyc hd
  exact ⟨_, exec_approxMatmul_complete hnone hxq hyq hzf, hxin, hxout, hyin, hyout, hzin, hzout, rfl⟩

end Sys2Proof.Machine

/-! The exceptions family (60_exceptions.md): which error a command reports, and how many draws it takes. -/

namespace Sys2Proof.Machine

/-! ### The first error that holds (60_exceptions.md R187, R190) -/

theorem neValid_eq_false {ne : Nat} (h : ¬(1 ≤ ne ∧ ne ≤ 6)) : neValid ne = false := by
  rwa [← Bool.not_eq_true, neValid_iff]

/-- A scalar command's one error is `InvalidFormat` (60_exceptions.md R186). -/
theorem scalar_raises {ne : Nat} {s : State} {e : BitVec 3}
    (h : (if 1 ≤ ne ∧ ne ≤ 6 then none else some (1 : BitVec 3)) = some e) (u : State) :
    (if neValid ne then complete u else raiseError .invalidFormat s) = .next { s with status := statusWord 0#1 e } := by
  split_ifs at h with hn
  cases h
  simp only [neValid_eq_false hn, Bool.false_eq_true, if_false]
  rfl

/-- `DOWNCAST_MATRIX` raises the first of its two errors: X empty, then `ne`. -/
theorem downcastMatrix_raises {ne : Nat} {s : State} {e : BitVec 3} (h : firstError (.downcastMatrix ne) s = some e) :
    exec (.downcastMatrix ne) s = .next { s with status := statusWord 0#1 e } := by
  simp only [firstError] at h
  simp only [exec, execDowncastMatrix]
  split_ifs at h with hx hn <;> cases h
  · rw [if_pos ((isEmptyShape_iff ..).mpr hx)]
    rfl
  · simp only [isEmptyShape_eq_false hx, neValid_eq_false hn, Bool.not_false, Bool.false_eq_true, if_false, if_true]
    rfl

/-- `APPROX_MATMUL` raises the first of its four errors: X empty, then `ne`, then Y empty, then the inner dimensions. -/
theorem approxMatmul_raises {ne : Nat} {s : State} {e : BitVec 3} (h : firstError (.approxMatmul ne) s = some e) :
    exec (.approxMatmul ne) s = .next { s with status := statusWord 0#1 e } := by
  simp only [firstError] at h
  simp only [exec, execApproxMatmul]
  split_ifs at h with hx hn hy hd <;> cases h
  · rw [if_pos ((isEmptyShape_iff ..).mpr hx)]
    rfl
  · simp only [isEmptyShape_eq_false hx, (neValid_iff ne).mpr hn, (isEmptyShape_iff ..).mpr hy, Bool.not_true,
      Bool.false_eq_true, if_false, if_true]
    rfl
  · simp only [isEmptyShape_eq_false hx, (neValid_iff ne).mpr hn, isEmptyShape_eq_false hy, bne_iff_ne.mpr hd,
      Bool.not_true, Bool.false_eq_true, if_false, if_true]
    rfl
  · simp only [isEmptyShape_eq_false hx, neValid_eq_false hn, Bool.not_false, Bool.false_eq_true, if_false, if_true]
    rfl

/-- Settles O19: each command raises the first of its own tests to fail, and an error's entry writes `STATUS` alone. -/
theorem firstErrorIsReportedAlone : Obligations.FirstErrorIsReportedAlone := by
  intro i s e h
  cases i with
  | downcast => exact scalar_raises h _
  | decode => exact scalar_raises h _
  | approxMultiply => exact scalar_raises h _
  | downcastMatrix => exact downcastMatrix_raises h
  | approxMatmul => exact approxMatmul_raises h
  | _ => cases h; rfl

/-! ### Draws (10_state.md R26; 60_exceptions.md R190) -/

/-- A successful command leaves the port its number of draws further on. -/
theorem exec_rnd_of_success {i : Instr} {s t : State} (h : exec i s = .next t) (hs : t.status = 0x00#8) :
    t.rnd = drawAdvance s.rnd (drawsTaken i s) := by
  cases exec_effect h with
  | error _ _ he => exact absurd hs (status_endCommand_ne_zero he s)
  | _ => rfl

/-- Settles O27: success advances the port, and a failed command changes nothing but `STATUS`. -/
theorem commandsTakeTheirDraws : Obligations.CommandsTakeTheirDraws := by
  intro i s t h
  split_ifs with hs
  · exact exec_rnd_of_success h hs
  · rw [exec_failed h hs]

end Sys2Proof.Machine

/-! The reset and hazards family (70_reset_and_hazards.md): what may happen while a command runs, what a reset leaves, and
what a replay of the draws repeats. -/

namespace Sys2Proof.Machine

/-! ### While `BUSY` is 1 (70_reset_and_hazards.md R212) -/

/-- Whatever is no read of `STATUS`, no reset and no statement about the draw source has to wait for the command's end. -/
theorem allowedWhileBusy_eq_false {a : Input} (hread : a ≠ .readReg 1) (hreset : a ≠ .reset) (hrnd : ∀ ds, a ≠ .rnd ds) :
    allowedWhileBusy a = false := by
  cases a with
  | readReg reg => exact decide_eq_false fun h => hread (h ▸ rfl)
  | rnd ds => exact absurd rfl (hrnd ds)
  | reset => exact absurd rfl hreset
  | _ => rfl

/-- A read of `STATUS` is performed whatever `BUSY` is. -/
theorem step_readStatus {s : State} {rest : List Input} (h : s.inputs = .readReg 1 :: rest) :
    step s = hostReadRegister 1 { s with inputs := rest } := by
  simp [step, fetch_perform h (.inr rfl), perform]

/-- Settles O13: a read of `STATUS` finds register 1, and every other access has to wait. -/
theorem onlyStatusMayBeReadWhileBusy : Obligations.OnlyStatusMayBeReadWhileBusy := by
  intro s rest hb
  refine ⟨fun hi => ?_, fun a hread hreset hrnd hi => ?_⟩
  · exact (step_readStatus hi).trans (hostReadRegister_of_some rfl)
  · exact step_busy hi hb (allowedWhileBusy_eq_false hread hreset hrnd)

/-! ### Reset (70_reset_and_hazards.md R210) -/

/-- A reset is performed whatever `BUSY` is. -/
theorem step_reset {s : State} {rest : List Input} (h : s.inputs = .reset :: rest) :
    step s = .next (resetCore { s with inputs := rest }) := by
  simp [step, fetch_perform h (.inr rfl), perform]

/-- Settles O15: the step performs `resetCore`, which keeps just the four fields that are not the core's. -/
theorem resetInputResetsTheCore : Obligations.ResetInputResetsTheCore :=
  fun _ _ hi => step_reset hi

/-! ### Replayed draws (70_reset_and_hazards.md R213) -/

/-- An outcome with the port of its next state replaced: two outcomes that agree in everything but the port are such a
pair. -/
def replacePort (q : DrawPort) : Host.Outcome State Fault Refusal → Host.Outcome State Fault Refusal
  | .next t => .next { t with rnd := q }
  | .fault f => .fault f
  | .refused r => .refused r

/-- The quantizing loop sees the port through the draws it takes only (40_quantizer.md R122). -/
theorem quantizeLoop_congr_port {p p' : DrawPort} {base n : Nat}
    (h : ∀ k < n, drawValue p (base + k) = drawValue p' (base + k)) (id : BufferId) (src : Buffer 32) (dst : Buffer 8)
    (ne : Nat) : quantizeLoop id src dst ne p base n = quantizeLoop id src dst ne p' base n := by
  induction n with
  | zero => rfl
  | succ n ih => simp only [quantizeLoop, ih fun k hk => h k (by omega), h n (by omega)]

/-- A scalar command under another port: an error leaves the port as it was, and the effect is the caller's
to compare. -/
theorem scalar_replayed (ne : Nat) (s : State) (p : DrawPort) {u u' : State}
    (hu : ∃ r, complete u' = replacePort r (complete u)) :
    ∃ r, (if neValid ne then complete u' else raiseError .invalidFormat { s with rnd := p }) =
      replacePort r (if neValid ne then complete u else raiseError .invalidFormat s) := by
  split_ifs
  · exact hu
  · exact ⟨p, rfl⟩

/-- `DOWNCAST_MATRIX` on replayed draws. -/
theorem execDowncastMatrix_replayed {s : State} {p : DrawPort}
    (h : ∀ n < s.xrows * s.xcols, drawValue p n = drawValue s.rnd n) (ne : Nat) :
    ∃ r, execDowncastMatrix ne { s with rnd := p } = replacePort r (execDowncastMatrix ne s) := by
  have hx := quantizeLoop_congr_port (p := p) (p' := s.rnd) (base := 0) (n := s.xrows * s.xcols)
    (fun k hk => h _ (by omega)) .xf s.xf s.xq ne
  simp only [execDowncastMatrix, hx]
  split_ifs
  · exact ⟨p, rfl⟩
  · exact ⟨p, rfl⟩
  · cases quantizeLoop .xf s.xf s.xq ne s.rnd 0 (s.xrows * s.xcols) with
    | error f => exact ⟨p, rfl⟩
    | ok q => exact ⟨_, rfl⟩

/-- The two phases of `APPROX_MATMUL` on replayed draws: X takes the first of them, Y the others (42_matmul.md R162). -/
theorem multiplyMatrices_replayed {s : State} {p : DrawPort}
    (h : ∀ n < s.xrows * s.xcols + s.yrows * s.ycols, drawValue p n = drawValue s.rnd n) (ne : Nat) :
    ∃ r, multiplyMatrices ne { s with rnd := p } = replacePort r (multiplyMatrices ne s) := by
  have hx := quantizeLoop_congr_port (p := p) (p' := s.rnd) (base := 0) (n := s.xrows * s.xcols)
    (fun k hk => h _ (by omega)) .xf s.xf s.xq ne
  have hy := quantizeLoop_congr_port (p := p) (p' := s.rnd) (base := s.xrows * s.xcols) (n := s.yrows * s.ycols)
    (fun k hk => h _ (by omega)) .yf s.yf s.yq ne
  simp only [multiplyMatrices, hx, hy]
  cases quantizeLoop .xf s.xf s.xq ne s.rnd 0 (s.xrows * s.xcols) with
  | error f => exact ⟨p, rfl⟩
  | ok xq =>
    cases quantizeLoop .yf s.yf s.yq ne s.rnd (s.xrows * s.xcols) (s.yrows * s.ycols) with
    | error f => exact ⟨p, rfl⟩
    | ok yq =>
      dsimp only
      cases productLoop xq yq s.zf ne s.xcols s.ycols (s.xrows * s.ycols) with
      | error f => exact ⟨p, rfl⟩
      | ok zf => exact ⟨_, rfl⟩

/-- `APPROX_MATMUL` on replayed draws: its tests do not look at the port. -/
theorem execApproxMatmul_replayed {s : State} {p : DrawPort}
    (h : ∀ n < s.xrows * s.xcols + s.yrows * s.ycols, drawValue p n = drawValue s.rnd n) (ne : Nat) :
    ∃ r, execApproxMatmul ne { s with rnd := p } = replacePort r (execApproxMatmul ne s) := by
  simp only [execApproxMatmul]
  split_ifs
  case neg => exact multiplyMatrices_replayed h ne
  all_goals exact ⟨p, rfl⟩

/-- Every command on replayed draws has the same outcome but for the port. -/
theorem exec_replayed {i : Instr} {s : State} {p : DrawPort}
    (h : ∀ n < drawsTaken i s, drawValue p n = drawValue s.rnd n) :
    ∃ r, exec i { s with rnd := p } = replacePort r (exec i s) := by
  cases i with
  | downcast ne =>
    simp only [exec, execDowncast, h 0 Nat.one_pos]
    exact scalar_replayed ne s p ⟨_, rfl⟩
  | decode ne => exact scalar_replayed ne s p ⟨p, rfl⟩
  | approxMultiply ne => exact scalar_replayed ne s p ⟨p, rfl⟩
  | downcastMatrix ne => exact execDowncastMatrix_replayed h ne
  | approxMatmul ne => exact execApproxMatmul_replayed h ne
  | _ => exact ⟨p, rfl⟩

/-- Settles O28: the replayed outcome is the first one with another port, read off for each kind of outcome. -/
theorem replayedDrawsReplayTheResult : Obligations.ReplayedDrawsReplayTheResult := by
  intro i s p h
  obtain ⟨r, hr⟩ := exec_replayed h
  cases he : exec i s with
  | next t => exact ⟨r, by rw [hr, he]; rfl⟩
  | fault f => rw [hr, he]; rfl
  | refused x => rw [hr, he]; rfl

end Sys2Proof.Machine

/-! More of the quantizer (40_quantizer.md R110, R113, R114): the fields of its byte, when the draw matters, what each class
of input gives, and how far an in-range input's byte is from it (95_test_vectors.md S3). -/

namespace Sys2Proof.Machine

/-! ### The fields of a composed byte (40_quantizer.md R111) -/

section Compose

variable {ne et t : Nat} (s : BitVec 1) (h6 : ne ≤ 6) (het : et < 2 ^ ne) (ht : t < 2 ^ manWidth ne)
include h6 het ht

/-- The byte with its two upper parts over the unit of the exponent field. -/
theorem composeByte_toNat_upper : (composeByte s ne et t).toNat = (s.toNat * 2 ^ ne + et) * 2 ^ manWidth ne + t := by
  have h7 : 2 ^ 7 = 2 ^ ne * 2 ^ manWidth ne := by rw [← pow_add, manWidth, Nat.add_sub_of_le (by omega)]
  rw [composeByte_toNat s h6 het ht, h7]
  ring

theorem fp8Man_composeByte : fp8Man (composeByte s ne et t) ne = t := by
  rw [fp8Man_eq, composeByte_toNat_upper s h6 het ht, Nat.mul_add_mod_self_right, Nat.mod_eq_of_lt ht]

theorem fp8Exp_composeByte : fp8Exp (composeByte s ne et t) ne = et := by
  rw [fp8Exp_eq, composeByte_toNat_upper s h6 het ht, Nat.mul_comm _ (2 ^ manWidth ne),
    Nat.mul_add_div (by positivity), Nat.div_eq_of_lt ht, Nat.add_zero, Nat.mul_add_mod_self_right, Nat.mod_eq_of_lt het]

theorem fp8Sign_composeByte : fp8Sign (composeByte s ne et t) = s := by
  have hb := toNat_eq_fields8 (composeByte s ne et t) h6
  rw [composeByte_toNat s h6 het ht, fp8Exp_composeByte s h6 het ht, fp8Man_composeByte s h6 het ht] at hb
  exact BitVec.eq_of_toNat_eq (by omega)

end Compose

section Downcast

variable (v : Word) {ne : Nat} (d : Word) (h1 : 1 ≤ ne) (h6 : ne ≤ 6)
include h1 h6

@[simp] theorem fp8Sign_downcast : fp8Sign (downcast v ne d) = fp32Sign v := by
  rw [downcast_eq_composeByte v d h1 h6]
  exact fp8Sign_composeByte _ h6 (targetExp_lt v h1) (roundMantissa_lt h6 (workMantissa_lt v ne) d)

@[simp] theorem fp8Exp_downcast : fp8Exp (downcast v ne d) ne = targetExp v ne := by
  rw [downcast_eq_composeByte v d h1 h6]
  exact fp8Exp_composeByte _ h6 (targetExp_lt v h1) (roundMantissa_lt h6 (workMantissa_lt v ne) d)

@[simp] theorem fp8Man_downcast : fp8Man (downcast v ne d) ne = roundMantissa ne (workMantissa v ne) d := by
  rw [downcast_eq_composeByte v d h1 h6]
  exact fp8Man_composeByte _ h6 (targetExp_lt v h1) (roundMantissa_lt h6 (workMantissa_lt v ne) d)

end Downcast

/-! ### The carry and the sign (40_quantizer.md R110, R114 (a), (f)) -/

/-- Settles O31: the rounded mantissa fits its field, so step 8 has nothing to carry. -/
theorem carryNeverFires : Obligations.CarryNeverFires := by
  intro v ne d et _ h6
  have ht := roundMantissa_lt h6 (workMantissa_lt v ne) d
  exact ⟨Nat.le_sub_one_of_lt ht, carryMantissa_of_lt et ht⟩

/-- Turning the sign of a pattern changes its sign field only. -/
theorem fp32Sign_xor (v : Word) : fp32Sign (v ^^^ 0x80000000#32) = fp32Sign v ^^^ 1#1 := by
  simp [fp32Sign, BitVec.extractLsb'_xor]

theorem fp32Exp_xor (v : Word) : fp32Exp (v ^^^ 0x80000000#32) = fp32Exp v := by
  simp [fp32Exp, BitVec.extractLsb'_xor]

theorem fp32Man_xor (v : Word) : fp32Man (v ^^^ 0x80000000#32) = fp32Man v := by
  simp [fp32Man, BitVec.extractLsb'_xor]

theorem rebiasedExp_xor (v : Word) (ne : Nat) : rebiasedExp (v ^^^ 0x80000000#32) ne = rebiasedExp v ne := by
  simp only [rebiasedExp, unbiasedExp, fp32Exp_xor]

/-- The exponent field takes no sign. -/
theorem targetExp_xor (v : Word) (ne : Nat) : targetExp (v ^^^ 0x80000000#32) ne = targetExp v ne := by
  simp only [targetExp_eq, rebiasedExp_xor]

/-- The working mantissa takes no sign. -/
theorem workMantissa_xor (v : Word) (ne : Nat) : workMantissa (v ^^^ 0x80000000#32) ne = workMantissa v ne := by
  simp only [workMantissa_eq, rebiasedExp_xor, fp32Man_xor, unbiasedExp, fp32Exp_xor]

theorem xor_signBit_toNat (b : Byte) : (b ^^^ 0x80#8).toNat = (b.toNat + 128) % 256 := by
  revert b
  decide

/-- Composing with the other sign turns bit 7 of the byte. -/
theorem composeByte_xor (s : BitVec 1) {ne et t : Nat} (h6 : ne ≤ 6) (het : et < 2 ^ ne) (ht : t < 2 ^ manWidth ne) :
    composeByte (s ^^^ 1#1) ne et t = composeByte s ne et t ^^^ 0x80#8 := by
  have hs : (s ^^^ 1#1).toNat = 1 - s.toNat := by
    rcases BitVec.eq_zero_or_eq_one s with rfl | rfl <;> rfl
  have hlt := s.isLt
  have hb := (composeByte s ne et t).isLt
  have hb' := (composeByte (s ^^^ 1#1) ne et t).isLt
  apply BitVec.eq_of_toNat_eq
  rw [xor_signBit_toNat]
  rw [composeByte_toNat _ h6 het ht] at hb hb' ⊢
  rw [composeByte_toNat _ h6 het ht, hs] at *
  omega

/-- Settles O34: the sign field is the input's, and the other two parts do not see it. -/
theorem downcastKeepsTheSign : Obligations.DowncastKeepsTheSign := by
  intro v ne d h1 h6
  constructor
  · have hsign := congrArg (·.getLsbD 0) (fp8Sign_downcast v d h1 h6)
    simpa [fp8Sign, fp32Sign] using hsign
  · rw [downcast_eq_composeByte _ d h1 h6, downcast_eq_composeByte v d h1 h6, fp32Sign_xor, targetExp_xor,
      workMantissa_xor]
    exact composeByte_xor _ h6 (targetExp_lt v h1) (roundMantissa_lt h6 (workMantissa_lt v ne) d)

/-! ### The rounded mantissa by the draw (40_quantizer.md R109, R114 (d), (e), (g)) -/

/-- The rounded mantissa with the shift of the format written out. -/
theorem roundMantissa_eq_ite {ne : Nat} (h6 : ne ≤ 6) (w : Nat) (d : Word) :
    roundMantissa ne w d = w / 2 ^ (16 + ne) + if roundsUp ne w d then 1 else 0 := by
  rw [roundMantissa, truncMantissa, truncShift_eq h6, Nat.shiftRight_eq_div_pow]

/-- The two outcomes of rounding, each with what it needs. -/
theorem roundMantissa_cases {ne : Nat} (h6 : ne ≤ 6) (w : Nat) (d : Word) :
    roundMantissa ne w d = w / 2 ^ (16 + ne) ∨
      roundMantissa ne w d = w / 2 ^ (16 + ne) + 1 ∧ w % 2 ^ (16 + ne) ≠ 0 ∧ w / 2 ^ (16 + ne) ≠ 2 ^ (7 - ne) - 1 := by
  rw [roundMantissa_eq_ite h6]
  split_ifs with h
  · obtain ⟨hlt, hmax⟩ := (roundsUp_iff_draw_lt h6 w d).mp h
    exact .inr ⟨rfl, fun h0 => by simp [h0] at hlt, hmax⟩
  · exact .inl rfl

/-- With nothing discarded, or at the largest mantissa, the mantissa is truncated. -/
theorem roundMantissa_of_exact_or_max {ne w : Nat} (h6 : ne ≤ 6)
    (h : w % 2 ^ (16 + ne) = 0 ∨ w / 2 ^ (16 + ne) = 2 ^ (7 - ne) - 1) (d : Word) :
    roundMantissa ne w d = w / 2 ^ (16 + ne) := by
  rcases roundMantissa_cases h6 w d with heq | ⟨-, hrem, hmax⟩
  · exact heq
  · exact (h.elim hrem hmax).elim

/-- The draw counts through its top `sh` bits. -/
theorem roundMantissa_congr {ne : Nat} (h6 : ne ≤ 6) (w : Nat) {d d' : Word}
    (h : d.toNat / 2 ^ (16 - ne) = d'.toNat / 2 ^ (16 - ne)) : roundMantissa ne w d = roundMantissa ne w d' := by
  rw [roundMantissa_eq, roundMantissa_eq, truncShift_eq h6, show 32 - (16 + ne) = 16 - ne by omega, h]

/-- Draw 0 rounds up whenever that is possible. -/
theorem roundMantissa_zero_draw {ne w : Nat} (h6 : ne ≤ 6) (hrem : w % 2 ^ (16 + ne) ≠ 0)
    (hmax : w / 2 ^ (16 + ne) ≠ 2 ^ (7 - ne) - 1) : roundMantissa ne w 0x00000000#32 = w / 2 ^ (16 + ne) + 1 := by
  have hup : roundsUp ne w 0x00000000#32 = true :=
    (roundsUp_iff_draw_lt h6 w _).mpr ⟨Nat.mul_pos (Nat.pos_of_ne_zero hrem) (by positivity), hmax⟩
  rw [roundMantissa_eq_ite h6, if_pos hup]

/-- The largest draw never rounds up: its top bits are `2^sh - 1`, which no remainder exceeds. -/
theorem roundMantissa_max_draw {ne : Nat} (h6 : ne ≤ 6) (w : Nat) :
    roundMantissa ne w 0xFFFFFFFF#32 = w / 2 ^ (16 + ne) := by
  have hup : ¬roundsUp ne w 0xFFFFFFFF#32 = true := by
    rw [roundsUp_iff_draw_lt h6]
    rintro ⟨hlt, -⟩
    have hrem : (w % 2 ^ (16 + ne) + 1) * 2 ^ (16 - ne) ≤ 2 ^ (16 + ne) * 2 ^ (16 - ne) :=
      Nat.mul_le_mul_right _ (Nat.mod_lt _ (by positivity))
    have hpos : 0 < 2 ^ (16 - ne) := by positivity
    rw [two_pow_truncShift_mul h6, Nat.add_one_mul] at hrem
    simp only [BitVec.toNat_ofNat] at hlt
    omega
  rw [roundMantissa_eq_ite h6, if_neg hup, Nat.add_zero]

/-- The draw reaches the byte through the rounded mantissa only. -/
theorem downcast_congr {v d d' : Word} {ne : Nat} (h1 : 1 ≤ ne) (h6 : ne ≤ 6)
    (h : roundMantissa ne (workMantissa v ne) d = roundMantissa ne (workMantissa v ne) d') :
    downcast v ne d = downcast v ne d' := by
  rw [downcast_eq_composeByte v d h1 h6, downcast_eq_composeByte v d' h1 h6, h]

/-- Settles O36: each fact is one of the rounded mantissa. -/
theorem howTheDrawMatters : Obligations.HowTheDrawMatters := by
  intro v ne d d' h1 h6
  refine ⟨fun h => downcast_congr h1 h6 ?_, fun h => downcast_congr h1 h6 (roundMantissa_congr h6 _ h),
    fun hrem hmax => ?_, ?_⟩
  · rw [roundMantissa_of_exact_or_max h6 h, roundMantissa_of_exact_or_max h6 h]
  · rw [downcast_toNat v _ h1 h6, downcast_toNat v _ h1 h6, roundMantissa_zero_draw h6 hrem hmax,
      roundMantissa_max_draw h6, ← Nat.add_assoc]
  · rw [fp8Man_downcast v _ h1 h6, roundMantissa_max_draw h6]

/-! ### The subnormal path (40_quantizer.md R104, R113, R114 (b), (c)) -/

theorem quantPath_eq_subnormal_iff (v : Word) (ne : Nat) : quantPath v ne = .subnormal ↔ rebiasedExp v ne < 1 := by
  unfold quantPath
  split_ifs with h <;> simp [h]

/-- The path by the exponent field: `e8 <= 127 - bias` (40_quantizer.md R103). -/
theorem quantPath_subnormal_iff_exp (v : Word) (ne : Nat) :
    quantPath v ne = .subnormal ↔ fp32Exp v + bias ne ≤ 127 := by
  rw [quantPath_eq_subnormal_iff, rebiasedExp, unbiasedExp]
  omega

/-- The biases of the valid formats are at most 31, and at least 7 from `ne = 4` on. -/
theorem bias_le {ne : Nat} (h6 : ne ≤ 6) : bias ne ≤ 31 := by
  have : 2 ^ (ne - 1) ≤ 2 ^ 5 := Nat.pow_le_pow_right (by norm_num) (by omega)
  rw [bias]
  omega

theorem le_bias {ne : Nat} (h4 : 4 ≤ ne) : 7 ≤ bias ne := by
  have : 2 ^ 3 ≤ 2 ^ (ne - 1) := Nat.pow_le_pow_right (by norm_num) (by omega)
  rw [bias]
  omega

/-- On the subnormal path the working mantissa is 24 bits shifted right by `128 - e8`. -/
theorem workMantissa_of_subnormal {v : Word} {ne : Nat} (h : quantPath v ne = .subnormal) :
    workMantissa v ne = (fp32Man v ||| 0x800000) / 2 ^ (128 - fp32Exp v) := by
  have hexp := (quantPath_subnormal_iff_exp v ne).mp h
  rw [workMantissa_eq, if_pos ((quantPath_eq_subnormal_iff v ne).mp h), unbiasedExp]
  congr 2
  omega

/-- A shift by at least `k` leaves `24 - k` bits. -/
theorem workMantissa_lt_of_subnormal {v : Word} {ne k : Nat} (h : quantPath v ne = .subnormal)
    (hk : k ≤ 24) (hexp : fp32Exp v + k ≤ 128) : workMantissa v ne < 2 ^ (24 - k) := by
  have hm := fp32Man_lt v
  have hor : fp32Man v ||| 0x800000 < 2 ^ 24 := Nat.or_lt_two_pow (by omega) (by norm_num)
  rw [workMantissa_of_subnormal h, Nat.div_lt_iff_lt_mul (by positivity), ← pow_add]
  exact hor.trans_le (Nat.pow_le_pow_right (by norm_num) (by omega))

/-- A shift by 24 or more leaves nothing. -/
theorem workMantissa_eq_zero {v : Word} {ne : Nat} (h : quantPath v ne = .subnormal) (hexp : fp32Exp v ≤ 104) :
    workMantissa v ne = 0 := by
  have := workMantissa_lt_of_subnormal h le_rfl (by omega)
  omega

theorem roundMantissa_zero {ne : Nat} (h6 : ne ≤ 6) (d : Word) : roundMantissa ne 0 d = 0 := by
  rw [roundMantissa_of_exact_or_max h6 (.inl (Nat.zero_mod _)), Nat.zero_div]

/-- An exponent field of 0 is on the subnormal path of every format. -/
theorem quantPath_of_exp_zero {v : Word} {ne : Nat} (h6 : ne ≤ 6) (h : fp32Exp v = 0) : quantPath v ne = .subnormal := by
  have := bias_le h6
  rw [quantPath_subnormal_iff_exp]
  omega

theorem targetExp_of_subnormal {v : Word} {ne : Nat} (h : quantPath v ne = .subnormal) : targetExp v ne = 0 := by
  rw [targetExp, h]

/-- From `ne = 4` on the subnormal path truncates to 0. -/
theorem workMantissa_div_eq_zero {v : Word} {ne : Nat} (h4 : 4 ≤ ne) (h : quantPath v ne = .subnormal) :
    workMantissa v ne / 2 ^ (16 + ne) = 0 := by
  have hbias := le_bias h4
  have hexp := (quantPath_subnormal_iff_exp v ne).mp h
  refine Nat.div_eq_of_lt ((workMantissa_lt_of_subnormal (k := 8) h (by omega) (by omega)).trans_le ?_)
  exact Nat.pow_le_pow_right (by norm_num) (by omega)

/-- Settles O35: the byte's fields are the target exponent and the rounded mantissa. -/
theorem exponentFieldZeroIsTheSubnormalPath : Obligations.ExponentFieldZeroIsTheSubnormalPath := by
  intro v ne d h1 h6
  obtain ⟨-, -, -, -, hiff, -⟩ := clampChangesNothing v ne h1 h6
  rw [fp8Exp_downcast v d h1 h6, fp8Man_downcast v d h1 h6]
  have hround := roundMantissa_cases h6 (workMantissa v ne) d
  refine ⟨hiff, hround.imp_right And.left, fun hp h4 => ?_, fun hv => ?_⟩
  · rw [workMantissa_div_eq_zero h4 hp] at hround
    omega
  · have hexp : fp32Exp v = 0 := by
      rw [fp32Exp_eq]
      omega
    have hp := quantPath_of_exp_zero h6 hexp
    exact ⟨targetExp_of_subnormal hp, by rw [workMantissa_eq_zero hp (by omega), roundMantissa_zero h6]⟩

/-! ### The byte of each path (40_quantizer.md R113) -/

/-- The subnormal path leaves the sign and the rounded mantissa. -/
theorem downcast_toNat_of_subnormal {v : Word} {ne : Nat} (h1 : 1 ≤ ne) (h6 : ne ≤ 6) (h : quantPath v ne = .subnormal)
    (d : Word) : (downcast v ne d).toNat = v.toNat / 2 ^ 31 * 128 + roundMantissa ne (workMantissa v ne) d := by
  rw [downcast_toNat v d h1 h6, targetExp_of_subnormal h, zero_mul, add_zero]
  norm_num

/-- An input of magnitude below `2^-22` on the subnormal path leaves its sign. -/
theorem downcast_toNat_of_exp_le {v : Word} {ne : Nat} (h1 : 1 ≤ ne) (h6 : ne ≤ 6) (h : quantPath v ne = .subnormal)
    (hexp : fp32Exp v ≤ 104) (d : Word) : (downcast v ne d).toNat = v.toNat / 2 ^ 31 * 128 := by
  rw [downcast_toNat_of_subnormal h1 h6 h, workMantissa_eq_zero h hexp, roundMantissa_zero h6, add_zero]

theorem workMantissa_of_inRange {v : Word} {ne : Nat} (h : quantPath v ne = .inRange) : workMantissa v ne = fp32Man v := by
  rw [workMantissa, h]

theorem targetExp_of_inRange {v : Word} {ne : Nat} (h1 : 1 ≤ ne) (h6 : ne ≤ 6) (h : quantPath v ne = .inRange) :
    (targetExp v ne : Int) = rebiasedExp v ne := by
  obtain ⟨-, -, hexp, -⟩ := clampChangesNothing v ne h1 h6
  exact hexp h

/-- The in-range path: the sign, the rebiased exponent and the rounded mantissa. -/
theorem downcast_toNat_of_inRange {v : Word} {ne : Nat} (h1 : 1 ≤ ne) (h6 : ne ≤ 6) (h : quantPath v ne = .inRange)
    (d : Word) : ((downcast v ne d).toNat : Int) =
      (v.toNat / 2 ^ 31 * 128 + roundMantissa ne (fp32Man v) d : Nat) + rebiasedExp v ne * 2 ^ (7 - ne) := by
  rw [downcast_toNat v d h1 h6, workMantissa_of_inRange h, ← targetExp_of_inRange h1 h6 h, manWidth]
  push_cast
  ring

/-- The overflow path truncates 23 set bits, so the mantissa is at its maximum. -/
theorem roundMantissa_of_overflow {v : Word} {ne : Nat} (h6 : ne ≤ 6) (h : quantPath v ne = .overflow) (d : Word) :
    roundMantissa ne (workMantissa v ne) d = 2 ^ (7 - ne) - 1 := by
  have hw : workMantissa v ne = 2 ^ 23 - 1 := by
    rw [workMantissa, h]
    norm_num
  have hmax : workMantissa v ne / 2 ^ (16 + ne) = 2 ^ (7 - ne) - 1 := by
    rw [hw, show 23 = 16 + ne + (7 - ne) by omega, pow_add, Nat.mul_sub_div 0 _ _ (by positivity), Nat.zero_div]
  rw [roundMantissa_of_exact_or_max h6 (.inr hmax), hmax]

/-- The overflow path saturates: the sign and seven set bits. -/
theorem downcast_toNat_of_overflow {v : Word} {ne : Nat} (h1 : 1 ≤ ne) (h6 : ne ≤ 6) (h : quantPath v ne = .overflow)
    (d : Word) : (downcast v ne d).toNat = v.toNat / 2 ^ 31 * 128 + 127 := by
  have hexp : targetExp v ne = 2 ^ ne - 1 := by rw [targetExp, h, expMax]
  have h7 : 2 ^ ne * 2 ^ (7 - ne) = 2 ^ 7 := by rw [← pow_add, Nat.add_sub_of_le (by omega)]
  have hpos : 2 ^ (7 - ne) ≤ 2 ^ 7 := Nat.pow_le_pow_right (by norm_num) (by omega)
  have hone : 0 < 2 ^ (7 - ne) := by positivity
  rw [downcast_toNat v d h1 h6, roundMantissa_of_overflow h6 h, hexp, manWidth, Nat.sub_mul, h7]
  omega

/-- Infinities and NaNs take the overflow path of every format. -/
theorem quantPath_of_exp_255 {v : Word} {ne : Nat} (h6 : ne ≤ 6) (h : fp32Exp v = 255) :
    quantPath v ne = .overflow := by
  have hle : (2 : Int) ^ ne ≤ 2 ^ 6 := pow_le_pow_right₀ (by norm_num) h6
  have hre : rebiasedExp v ne = 128 + bias ne := by
    rw [rebiasedExp, unbiasedExp, h]
    ring
  rw [quantPath, hre, if_neg (by omega), if_pos (by omega)]

/-- Settles O37: each class is on one path, and each path's byte is known up to the rounding. -/
theorem downcastOfEachInputClass : Obligations.DowncastOfEachInputClass := by
  intro v ne d h1 h6
  refine ⟨fun hexp => ?_, fun hp hexp => downcast_toNat_of_exp_le h1 h6 hp hexp d, fun hp => ?_, fun hp hrem => ?_,
    fun hp => ?_, fun hp => downcast_toNat_of_overflow h1 h6 hp d, fun hexp => quantPath_of_exp_255 h6 hexp⟩
  · exact downcast_toNat_of_exp_le h1 h6 (quantPath_of_exp_zero h6 hexp) (by omega) d
  · rw [downcast_toNat_of_subnormal h1 h6 hp]
    rcases roundMantissa_cases h6 (workMantissa v ne) d with ht | ⟨ht, hrem, hmax⟩
    · exact .inl (by rw [ht])
    · exact .inr ⟨by rw [ht], hrem, hmax⟩
  · rw [downcast_toNat_of_inRange h1 h6 hp, roundMantissa_of_exact_or_max h6 (.inl hrem)]
  · rw [downcast_toNat_of_inRange h1 h6 hp]
    rcases roundMantissa_cases h6 (fp32Man v) d with ht | ⟨ht, -, hmax⟩
    · exact .inl (by rw [ht])
    · exact .inr ⟨by rw [ht], hmax⟩

/-! ### The round trip of an in-range input (95_test_vectors.md S3; 90_conflicts.md C10) -/

/-- Rounding moves a mantissa by less than one unit of the bits it keeps. -/
theorem abs_roundMantissa_sub_lt {ne : Nat} (h6 : ne ≤ 6) (w : Nat) (d : Word) :
    |((roundMantissa ne w d * 2 ^ (16 + ne) : Nat) : Int) - w| < (2 ^ (16 + ne) : Nat) := by
  have hdiv := Nat.div_add_mod' w (2 ^ (16 + ne))
  have hlt : w % 2 ^ (16 + ne) < 2 ^ (16 + ne) := Nat.mod_lt _ (by positivity)
  rw [abs_lt]
  rcases roundMantissa_cases h6 w d with ht | ⟨ht, hrem, -⟩
  · rw [ht]
    omega
  · rw [ht, Nat.add_one_mul]
    omega

theorem targetExp_ne_zero_of_inRange {v : Word} {ne : Nat} (h1 : 1 ≤ ne) (h6 : ne ≤ 6) (h : quantPath v ne = .inRange) :
    targetExp v ne ≠ 0 := by
  obtain ⟨-, -, -, -, hiff, -⟩ := clampChangesNothing v ne h1 h6
  rw [Ne, hiff, h]
  decide

/-- The byte of an in-range input has the input's own exponent. -/
theorem decodeFp8_exp_downcast_of_inRange {v : Word} {ne : Nat} (h1 : 1 ≤ ne) (h6 : ne ≤ 6)
    (h : quantPath v ne = .inRange) (d : Word) : (decodeFp8 (downcast v ne d) ne).exp = unbiasedExp v := by
  rw [decodeFp8, fp8Exp_downcast v d h1 h6]
  dsimp only
  rw [if_neg (targetExp_ne_zero_of_inRange h1 h6 h), targetExp_of_inRange h1 h6 h, rebiasedExp, Int.add_sub_cancel]

/-- The byte of an in-range input as a rational: the rounded mantissa in the input's binade. -/
theorem recon_downcast_of_inRange {v : Word} {ne : Nat} (h1 : 1 ≤ ne) (h6 : ne ≤ 6) (h : quantPath v ne = .inRange) (d : Word) :
    recon (downcast v ne d) ne = (-1) ^ (fp32Sign v).toNat *
      (1 + (roundMantissa ne (fp32Man v) d : ℚ) / 2 ^ (7 - ne)) * (2 : ℚ) ^ unbiasedExp v := by
  rw [recon, sigVal_eq, fp8Exp_downcast v d h1 h6, if_neg (targetExp_ne_zero_of_inRange h1 h6 h),
    decodeFp8_exp_downcast_of_inRange h1 h6 h, decodeFp8_sign, fp8Sign_downcast v d h1 h6, fp8Man_downcast v d h1 h6,
    workMantissa_of_inRange h, manWidth]

/-- An in-range input is a normal number. -/
theorem val32_of_inRange {v : Word} {ne : Nat} (h6 : ne ≤ 6) (h : quantPath v ne = .inRange) :
    val32 v = (-1) ^ (fp32Sign v).toNat * (1 + (fp32Man v : ℚ) / 2 ^ 23) * (2 : ℚ) ^ unbiasedExp v := by
  have hne : fp32Exp v ≠ 0 := fun h0 => by simp [quantPath_of_exp_zero h6 h0] at h
  rw [val32, if_neg hne, unbiasedExp]
  ring

/-- Settles O38: both values lie in one binade, so their distance is that of the mantissas. -/
theorem inRangeRoundTripIsWithinOneStep : Obligations.InRangeRoundTripIsWithinOneStep := by
  intro v ne d h1 h6 hp
  have h23 : (2 : ℚ) ^ 23 = 2 ^ (7 - ne) * 2 ^ (16 + ne) := by rw [← pow_add, show 7 - ne + (16 + ne) = 23 by omega]
  have hstep : (2 : ℚ) ^ (unbiasedExp v - (7 - ne : ℤ)) = (2 : ℚ) ^ unbiasedExp v / 2 ^ (7 - ne) := by
    rw [show (7 - ne : ℤ) = ((7 - ne : ℕ) : ℤ) by omega, zpow_sub₀ two_ne_zero, zpow_natCast]
  have hmantissa : |(roundMantissa ne (fp32Man v) d : ℚ) * 2 ^ (16 + ne) - fp32Man v| < 2 ^ (16 + ne) := by
    exact_mod_cast abs_roundMantissa_sub_lt h6 (fp32Man v) d
  have hdiff : recon (downcast v ne d) ne - val32 v = (-1) ^ (fp32Sign v).toNat *
      ((2 : ℚ) ^ unbiasedExp v / 2 ^ 23 * (roundMantissa ne (fp32Man v) d * 2 ^ (16 + ne) - fp32Man v)) := by
    rw [recon_downcast_of_inRange h1 h6 hp, val32_of_inRange h6 hp, h23]
    field_simp
    ring
  calc |recon (downcast v ne d) ne - val32 v|
      = (2 : ℚ) ^ unbiasedExp v / 2 ^ 23 * |(roundMantissa ne (fp32Man v) d : ℚ) * 2 ^ (16 + ne) - fp32Man v| := by
        rw [hdiff, abs_mul, abs_neg_one_pow, one_mul, abs_mul, abs_of_pos (by positivity)]
    _ < (2 : ℚ) ^ unbiasedExp v / 2 ^ 23 * 2 ^ (16 + ne) := mul_lt_mul_of_pos_left hmantissa (by positivity)
    _ = (2 : ℚ) ^ (unbiasedExp v - (7 - ne : ℤ)) := by
        rw [hstep, h23]
        field_simp

end Sys2Proof.Machine

/-! More of the L-Mul unit (41_lmul.md R134, R146): the ranges of the decoded tuple and the order of a product's operands. -/

namespace Sys2Proof.Machine

/-- A decoded significand is 0, or `1 + f` with `f` below 1 (41_lmul.md R132 to R134). -/
theorem sigVal_range (b : Byte) (ne : Nat) : sigVal b ne = 0 ∨ (1 ≤ sigVal b ne ∧ sigVal b ne < 2) := by
  rw [sigVal_eq]
  split_ifs with h0
  · exact .inl rfl
  · have hlt : (fp8Man b ne : ℚ) / 2 ^ manWidth ne < 1 := by
      rw [fp8Man_eq, div_lt_one (by positivity)]
      exact_mod_cast Nat.mod_lt _ (by positivity)
    have hnonneg : (0 : ℚ) ≤ (fp8Man b ne : ℚ) / 2 ^ manWidth ne := by positivity
    exact .inr ⟨by linarith, by linarith⟩

/-- A decoded exponent is 0, or an exponent field from 1 to `EMAX` without the bias (41_lmul.md R132, R133). -/
theorem decodeFp8_exp_range (b : Byte) (ne : Nat) : (decodeFp8 b ne).exp = 0 ∨
    (1 - (bias ne : Int) ≤ (decodeFp8 b ne).exp ∧ (decodeFp8 b ne).exp ≤ (expMax ne : Int) - bias ne) := by
  have hle := fp8Exp_le b ne
  dsimp only [decodeFp8]
  split_ifs with h0
  · exact .inl rfl
  · exact .inr ⟨by omega, by omega⟩

/-- Settles O44: each part of the tuple by its field's range. -/
theorem decodedTupleRanges : Obligations.DecodedTupleRanges := by
  intro b ne h1 h6
  obtain ⟨hlow, hup⟩ := decodeFp8_exp_bounds b h1 h6
  exact ⟨decodeFp8_exp_range b ne, hlow, hup, ⟨fp8Man b ne, fp8Man_le b ne, rfl⟩, sigVal_range b ne⟩

theorem mantissaSum_comm (bx bY : Byte) (ne : Nat) : mantissaSum bx bY ne = mantissaSum bY bx ne := by
  rw [mantissaSum, mantissaSum]
  ring

theorem mantissaCarry_comm (bx bY : Byte) (ne : Nat) : mantissaCarry bx bY ne = mantissaCarry bY bx ne := by
  rw [mantissaCarry, mantissaCarry, mantissaSum_comm]

theorem productExp_comm (bx bY : Byte) (ne : Nat) : productExp bx bY ne = productExp bY bx ne := by
  rw [productExp, productExp, mantissaCarry_comm]
  ring

theorem productMan_comm (bx bY : Byte) (ne : Nat) : productMan bx bY ne = productMan bY bx ne := by
  rw [productMan, productMan, mantissaSum_comm, mantissaCarry_comm]

/-- Settles O49: each of the product's three fields is symmetric in the operands. -/
theorem productIsCommutative : Obligations.ProductIsCommutative := by
  intro bx bY ne
  rw [approxMultiply, approxMultiply, BitVec.xor_comm, productExp_comm, productMan_comm]

end Sys2Proof.Machine

/-! The accumulating addition (42_matmul.md section 2): what `fadd32` rounds to, when it overflows, and what every partial
sum of a matrix product is. -/

namespace Sys2Proof.Machine

/-! ### Finite values as integers of the unit `2^-149` (30_encoding.md R60, R61) -/

theorem abs_val32 (v : Word) : |val32 v| = (fixedMag v : ℚ) / 2 ^ 149 := by
  rw [val32_eq_fixed, abs_div, ← fixedVal_natAbs, Nat.cast_natAbs, abs_of_pos (a := (2 : ℚ) ^ 149) (by positivity),
    Int.cast_abs]

/-- A distance between values is the distance of their fixed-point integers, in the unit. -/
theorem abs_val32_sub_sum (u a b : Word) :
    |val32 u - (val32 a + val32 b)| = (|fixedVal u - (fixedVal a + fixedVal b)| : ℤ) / 2 ^ 149 := by
  rw [val32_eq_fixed, val32_eq_fixed, val32_eq_fixed, ← add_div, ← sub_div, abs_div,
    abs_of_pos (a := (2 : ℚ) ^ 149) (by positivity)]
  push_cast
  rfl

theorem val32_eq_iff (u v : Word) : val32 u = val32 v ↔ fixedVal u = fixedVal v := by
  rw [val32_eq_fixed, val32_eq_fixed, div_left_inj' (by positivity), Int.cast_inj]

theorem val32_eq_zero_iff (v : Word) : val32 v = 0 ↔ fixedVal v = 0 := by
  rw [val32_eq_fixed, div_eq_zero_iff, or_iff_left (by positivity), Int.cast_eq_zero]

theorem val32_add (a b : Word) : val32 a + val32 b = (fixedVal a + fixedVal b : ℤ) / 2 ^ 149 := by
  rw [val32_eq_fixed, val32_eq_fixed, ← add_div]
  push_cast
  rfl

/-- A larger exponent field is a larger magnitude. -/
theorem fixedMag_lt_of_exp_lt {u v : Word} (h : fp32Exp u < fp32Exp v) : fixedMag u < fixedMag v := by
  have hu := fp32Man_lt u
  have hv : 2 ^ 23 * 2 ^ (fp32Exp v - 1) ≤ fixedMag v := by
    rw [fixedMag, if_neg (by omega), Nat.shiftLeft_eq]
    exact Nat.mul_le_mul_right _ (by omega)
  refine lt_of_lt_of_le ?_ hv
  rw [fixedMag]
  split_ifs with h0
  · exact hu.trans_le (Nat.le_mul_of_pos_right _ (by positivity))
  · rw [Nat.shiftLeft_eq]
    calc (2 ^ 23 + fp32Man u) * 2 ^ (fp32Exp u - 1) < 2 ^ 24 * 2 ^ (fp32Exp u - 1) :=
          Nat.mul_lt_mul_of_pos_right (by omega) (by positivity)
      _ = 2 ^ 23 * 2 ^ (fp32Exp u - 1 + 1) := by ring
      _ ≤ 2 ^ 23 * 2 ^ (fp32Exp v - 1) := Nat.mul_le_mul_left _ (Nat.pow_le_pow_right (by norm_num) (by omega))

/-- A finite magnitude is below `2^128`. -/
theorem fixedMag_lt {v : Word} (h : fp32Finite v = true) : fixedMag v < 2 ^ 277 := by
  obtain ⟨m, k, hm, hk, hmag⟩ := fixedMag_representable h
  calc fixedMag v = m * 2 ^ k := hmag
    _ < 2 ^ 24 * 2 ^ k := Nat.mul_lt_mul_of_pos_right hm (by positivity)
    _ ≤ 2 ^ 24 * 2 ^ 253 := Nat.mul_le_mul_left _ (Nat.pow_le_pow_right (by norm_num) hk)
    _ = 2 ^ 277 := by rw [← pow_add]

/-- Patterns of one magnitude agree in both magnitude fields. -/
theorem fields_eq_of_fixedMag_eq {u v : Word} (h : fixedMag u = fixedMag v) :
    fp32Exp u = fp32Exp v ∧ fp32Man u = fp32Man v := by
  have hexp : fp32Exp u = fp32Exp v := by
    rcases lt_trichotomy (fp32Exp u) (fp32Exp v) with hlt | heq | hlt
    · exact absurd h (fixedMag_lt_of_exp_lt hlt).ne
    · exact heq
    · exact absurd h (fixedMag_lt_of_exp_lt hlt).ne'
  refine ⟨hexp, ?_⟩
  rw [fixedMag, fixedMag, hexp] at h
  split_ifs at h with h0
  · exact h
  · rw [Nat.shiftLeft_eq, Nat.shiftLeft_eq] at h
    have := Nat.eq_of_mul_eq_mul_right (by positivity) h
    omega

/-- The sign bit of a nonzero value. -/
theorem fp32Sign_eq_one_iff {v : Word} (h0 : fixedVal v ≠ 0) : fp32Sign v = 1#1 ↔ fixedVal v < 0 := by
  unfold fixedVal at h0 ⊢
  split_ifs at h0 ⊢ with hs
  · exact ⟨fun _ => by omega, fun _ => hs⟩
  · exact ⟨fun h => absurd h hs, fun h => by omega⟩

/-- A nonzero value has one pattern. -/
theorem eq_of_fixedVal_eq {u v : Word} (h : fixedVal u = fixedVal v) (h0 : fixedVal v ≠ 0) : u = v := by
  obtain ⟨hexp, hman⟩ := fields_eq_of_fixedMag_eq (u := u) (v := v) (by rw [← fixedVal_natAbs, h, fixedVal_natAbs])
  have hsign : fp32Sign u = 1#1 ↔ fp32Sign v = 1#1 := by
    rw [fp32Sign_eq_one_iff h0, fp32Sign_eq_one_iff (h ▸ h0), h]
  refine eq_of_fields ?_ hexp hman
  by_cases hv : fp32Sign v = 1#1
  · rw [hv, hsign.mpr hv]
  · rw [(BitVec.eq_zero_or_eq_one _).resolve_right hv, (BitVec.eq_zero_or_eq_one _).resolve_right (mt hsign.mp hv)]

/-! ### Sums that are zero or representable (42_matmul.md R165) -/

/-- Settles O53: the rule's zero case. -/
theorem faddZeroSign : Obligations.FaddZeroSign := by
  intro a b ha hb hx
  rw [val32_add, div_eq_zero_iff, or_iff_left (by positivity), Int.cast_eq_zero] at hx
  exact fadd32_zero ha hb hx

/-- Settles O54: a representable magnitude is its own rounding, and a nonzero value has one pattern. -/
theorem faddIsExactOnRepresentableSums : Obligations.FaddIsExactOnRepresentableSums := by
  intro a b c ha hb hc hne hsum
  rw [Ne, val32_eq_zero_iff] at hne
  rw [val32_add, val32_eq_fixed, div_left_inj' (by positivity), Int.cast_inj] at hsum
  have hmag : roundedMag (fixedVal a + fixedVal b).natAbs = (fixedVal a + fixedVal b).natAbs := by
    refine roundedMag_of_representable (by omega) ?_
    rw [← hsum, fixedVal_natAbs]
    exact fixedMag_representable hc
  have hlt : roundedMag (fixedVal a + fixedVal b).natAbs < 2 ^ 277 := by
    rw [hmag, ← hsum, fixedVal_natAbs]
    exact fixedMag_lt hc
  obtain ⟨-, hval, -, -⟩ := fadd32_spec ha hb (hsum ▸ hne) hlt
  refine eq_of_fixedVal_eq ?_ hne
  rw [hval, hmag, Int.sign_mul_natAbs, hsum]

/-! ### Overflow (42_matmul.md R165) -/

/-- The rounded magnitude passes the largest finite one exactly from the midpoint above it, where the tie goes to the even
significand `2^24`. -/
theorem two_pow_le_roundedMag_iff {y : Nat} (hy : 0 < y) : 2 ^ 277 ≤ roundedMag y ↔ (2 ^ 25 - 1) * 2 ^ 252 ≤ y := by
  constructor
  · intro h
    by_contra hlt
    have hrep : Representable ((2 ^ 24 - 1) * 2 ^ 253) := ⟨2 ^ 24 - 1, 253, by norm_num, le_rfl, rfl⟩
    rcases le_or_gt y ((2 ^ 24 - 1) * 2 ^ 253) with hle | hgt
    · have := roundedMag_le hy hrep hle
      omega
    · have hnear := (roundedMag_nearest hy hrep).1
      rw [abs_of_nonpos (a := (((2 ^ 24 - 1) * 2 ^ 253 : ℕ) : ℤ) - y) (by omega)] at hnear
      have hup := (le_abs_self _).trans hnear
      omega
  · intro h
    have hscale : 253 ≤ scaleExp y := by
      have : 276 ≤ Nat.log2 y := (Nat.le_log2 hy.ne').mpr (by omega)
      rw [scaleExp]
      omega
    rcases hscale.eq_or_lt with heq | hlt
    · obtain ⟨⟨-, hlo⟩, htie⟩ := roundEven_spec y (scaleExp y)
      rw [roundedMag, roundedSig]
      rw [← heq] at hlo htie ⊢
      omega
    · calc 2 ^ 277 = 2 ^ 23 * 2 ^ 254 := pow_add 2 23 254
        _ ≤ roundedSig y * 2 ^ scaleExp y :=
          Nat.mul_le_mul ((roundedSig_bounds hy).2 (by omega)) (Nat.pow_le_pow_right (by norm_num) hlt)

/-- The infinity of a sign is not finite. -/
theorem fp32Finite_infinity (s : BitVec 1) : fp32Finite (fp32Pack s 0xFF#8 0#23) = false := by
  simp [fp32Finite]

/-- A sum is finite unless it is nonzero and its rounded magnitude reaches `2^128`. -/
theorem fp32Finite_fadd32_eq_false_iff {a b : Word} (ha : fp32Finite a = true) (hb : fp32Finite b = true) :
    fp32Finite (fadd32 a b) = false ↔
      fixedVal a + fixedVal b ≠ 0 ∧ 2 ^ 277 ≤ roundedMag (fixedVal a + fixedVal b).natAbs := by
  by_cases hx : fixedVal a + fixedVal b = 0
  · have hfin : fp32Finite (fadd32 a b) = true := by
      rw [fadd32_zero ha hb hx]
      split_ifs <;> decide
    rw [hfin]
    exact ⟨fun h => absurd h (by decide), fun h => absurd hx h.1⟩
  · rcases le_or_gt (2 ^ 277) (roundedMag (fixedVal a + fixedVal b).natAbs) with hle | hlt
    · rw [fadd32_overflow ha hb hx hle, fp32Finite_infinity]
      exact ⟨fun _ => ⟨hx, hle⟩, fun _ => rfl⟩
    · rw [(fadd32_spec ha hb hx hlt).1]
      exact ⟨fun h => absurd h (by decide), fun h => absurd h.2 hlt.not_ge⟩

/-- Settles O52: overflow is a bound of the rounded magnitude, and so of the exact one. -/
theorem faddOverflowsPastTheLargest : Obligations.FaddOverflowsPastTheLargest := by
  intro a b ha hb
  rw [fp32Finite_fadd32_eq_false_iff ha hb]
  have habs : ((2 ^ 25 - 1) * 2 ^ 103 : ℚ) ≤ |val32 a + val32 b| ↔
      (2 ^ 25 - 1) * 2 ^ 252 ≤ (fixedVal a + fixedVal b).natAbs := by
    rw [val32_add, abs_div, abs_of_pos (a := (2 : ℚ) ^ 149) (by positivity), le_div_iff₀ (by positivity),
      ← Int.cast_abs, Int.abs_eq_natAbs, ← Nat.cast_le (α := ℚ)]
    norm_num
  have hneg : val32 a + val32 b < 0 ↔ fixedVal a + fixedVal b < 0 := by
    rw [val32_add, div_lt_iff₀ (by positivity), zero_mul, Int.cast_lt_zero]
  rw [habs]
  refine ⟨⟨fun ⟨hx, h⟩ => (two_pow_le_roundedMag_iff (by omega)).mp h, fun h => ?_⟩, fun ⟨hx, h⟩ => ?_⟩
  · exact ⟨by omega, (two_pow_le_roundedMag_iff (by omega)).mpr h⟩
  · rw [fadd32_overflow ha hb hx h]
    simp only [hneg]
    split_ifs <;> decide

/-! ### Rounding to nearest, ties to even (42_matmul.md R165) -/

/-- The last bit of a pattern is its significand's. -/
theorem getLsbD_zero_eq_false {v : Word} (h : fp32Man v % 2 = 0) : v.getLsbD 0 = false := by
  rw [fp32Man_eq] at h
  rw [← BitVec.testBit_toNat, Nat.testBit_zero, decide_eq_false_iff_not]
  omega

/-- A nonzero number of the sign of `x` is as far from `x` as their magnitudes are from each other. -/
theorem abs_sign_mul_sub {x : ℤ} (hx : x ≠ 0) (r : ℕ) : |x.sign * r - x| = |(r : ℤ) - x.natAbs| := by
  rcases lt_or_gt_of_ne hx with h | h
  · rw [Int.sign_eq_neg_one_of_neg h, ← abs_neg]
    congr 1
    omega
  · rw [Int.sign_eq_one_of_pos h]
    congr 1
    omega

/-- Magnitudes are no farther from each other than the numbers are. -/
theorem abs_natAbs_sub_le (z x : ℤ) : |(z.natAbs : ℤ) - x.natAbs| ≤ |z - x| := by
  rw [Int.natCast_natAbs, Int.natCast_natAbs]
  exact abs_abs_sub_abs_le z x

/-- A finite nonzero sum in integers: no finite number is nearer, and an equally near other one leaves the last bit 0. -/
theorem fadd32_nearest {a b c : Word} (ha : fp32Finite a = true) (hb : fp32Finite b = true) (hc : fp32Finite c = true)
    (hx : fixedVal a + fixedVal b ≠ 0) (h : roundedMag (fixedVal a + fixedVal b).natAbs < 2 ^ 277) :
    |fixedVal (fadd32 a b) - (fixedVal a + fixedVal b)| ≤ |fixedVal c - (fixedVal a + fixedVal b)| ∧
      (|fixedVal (fadd32 a b) - (fixedVal a + fixedVal b)| = |fixedVal c - (fixedVal a + fixedVal b)| →
        fixedVal c ≠ fixedVal (fadd32 a b) → (fadd32 a b).getLsbD 0 = false) := by
  obtain ⟨-, hval, hbit, -⟩ := fadd32_spec ha hb hx h
  obtain ⟨hnear, htie⟩ := roundedMag_nearest (y := (fixedVal a + fixedVal b).natAbs) (by omega) (fixedMag_representable hc)
  have hmag := abs_natAbs_sub_le (fixedVal c) (fixedVal a + fixedVal b)
  rw [fixedVal_natAbs] at hmag
  have hdist := abs_sign_mul_sub hx (roundedMag (fixedVal a + fixedVal b).natAbs)
  rw [hval, hdist]
  refine ⟨hnear.trans hmag, fun heq hne => getLsbD_zero_eq_false ?_⟩
  rw [hbit]
  refine htie (le_antisymm hnear (hmag.trans heq.ge)) fun hcr => ?_
  -- the number of that magnitude and the other sign is farther
  generalize fixedVal a + fixedVal b = x at *
  rw [← fixedVal_natAbs] at hcr
  have hsides := abs_eq_abs.mp heq
  rcases lt_or_gt_of_ne hx with hlt | hgt
  · rw [Int.sign_eq_neg_one_of_neg hlt] at hne
    omega
  · rw [Int.sign_eq_one_of_pos hgt] at hne
    omega

/-- Settles O51: a zero sum is exact, and a nonzero one is a nearest integer of the unit. -/
theorem faddRoundsToNearestEven : Obligations.FaddRoundsToNearestEven := by
  intro a b c ha hb hc hfin
  rw [abs_val32_sub_sum, abs_val32_sub_sum, div_le_div_iff_of_pos_right (by positivity), div_left_inj' (by positivity),
    Int.cast_le, Int.cast_inj, Ne, val32_eq_iff]
  by_cases hx : fixedVal a + fixedVal b = 0
  · have hzero : fixedVal (fadd32 a b) = 0 := by
      rw [fadd32_zero ha hb hx]
      split_ifs <;> decide
    rw [hx, hzero]
    refine ⟨by simp, fun heq hne => absurd ?_ hne⟩
    simpa using heq.symm
  · refine fadd32_nearest ha hb hc hx (not_le.mp fun hle => ?_)
    rw [(fp32Finite_fadd32_eq_false_iff ha hb).mpr ⟨hx, hle⟩] at hfin
    exact absurd hfin (by decide)

/-! ### Partial sums stay small and normal (42_matmul.md R166) -/

/-- What R166 says of an accumulator, in units of `2^-149`: `+0.0` or a normal number, a multiple of `2^-61`, at most
`2^91` in magnitude, where a product is less than half a unit of the last place. -/
structure BoundedSum (v : Word) : Prop where
  finite : fp32Finite v = true
  normal : NormalOrZero v
  dvd : ((2 ^ 88 : ℕ) : ℤ) ∣ fixedVal v
  le : fixedMag v ≤ 2 ^ 240

theorem boundedSum_zero : BoundedSum 0x00000000#32 where
  finite := by decide
  normal := .inl rfl
  dvd := by decide
  le := by decide

/-- Once the sum has reached `2^240`, an addend below half a unit of the last place cannot raise it. -/
theorem roundedMag_le_of_lt_add {y : Nat} (hy : 0 < y) (h : y < 2 ^ 240 + 2 ^ 216) : roundedMag y ≤ 2 ^ 240 := by
  have hrep : Representable (2 ^ 240) := ⟨1, 240, by norm_num, by norm_num, by norm_num⟩
  rcases le_or_gt y (2 ^ 240) with hle | hlt
  · exact roundedMag_le hy hrep hle
  · have hnear := (roundedMag_nearest hy hrep).1
    rw [abs_of_nonpos (a := ((2 ^ 240 : ℕ) : ℤ) - y) (by omega)] at hnear
    have hup := (le_abs_self _).trans hnear
    have hscale : 217 ≤ scaleExp y := by
      have : 240 ≤ Nat.log2 y := (Nat.le_log2 hy.ne').mpr hlt.le
      rw [scaleExp]
      omega
    obtain ⟨z, hz⟩ : 2 ^ 217 ∣ roundedMag y := Dvd.dvd.mul_left (pow_dvd_pow 2 hscale) _
    omega

/-- Adding a product to a partial sum gives a partial sum. -/
theorem boundedSum_fadd32_approxMultiply {a : Word} (h : BoundedSum a) (bx bY : Byte) {ne : Nat} (h1 : 1 ≤ ne)
    (h6 : ne ≤ 6) : BoundedSum (fadd32 a (approxMultiply bx bY ne)) := by
  obtain ⟨hfin, hdvd, hpos, hlt⟩ := fixedMag_approxMultiply bx bY h1 h6
  generalize approxMultiply bx bY ne = p at *
  rw [← fixedVal_natAbs] at hdvd hpos hlt
  have ha := h.le
  rw [← fixedVal_natAbs] at ha
  by_cases hx : fixedVal a + fixedVal p = 0
  · have hp : p ≠ 0x80000000#32 := by
      rintro rfl
      exact absurd hpos (by decide)
    rw [fadd32_zero h.finite hfin hx, if_neg fun hz => hp hz.2]
    exact boundedSum_zero
  · have hsum := dvd_add h.dvd (Int.natCast_dvd.mpr hdvd)
    have hge : 2 ^ 88 ≤ (fixedVal a + fixedVal p).natAbs := Nat.le_of_dvd (by omega) (Int.natCast_dvd.mp hsum)
    have hle : roundedMag (fixedVal a + fixedVal p).natAbs ≤ 2 ^ 240 := roundedMag_le_of_lt_add (by omega) (by omega)
    obtain ⟨hf, hval, -, hexp⟩ := fadd32_spec h.finite hfin hx (by omega)
    refine ⟨hf, .inr (hexp (by omega)), ?_, ?_⟩
    · rw [hval]
      exact (Int.natCast_dvd_natCast.mpr (dvd_roundedMag (Int.natCast_dvd.mp hsum))).mul_left _
    · rw [← fixedVal_natAbs, hval, Int.natAbs_mul, Int.natAbs_sign_of_ne_zero hx, one_mul]
      exact hle

/-- Every ascending sum of products is a partial sum of R166, whatever its length. -/
theorem boundedSum_sumAscending {ne : Nat} (x y : Nat → Byte) (k : Nat) (h1 : 1 ≤ ne) (h6 : ne ≤ 6) :
    BoundedSum (sumAscending (fun l => approxMultiply (x l) (y l) ne) k) := by
  induction k with
  | zero => exact boundedSum_zero
  | succ k ih => exact boundedSum_fadd32_approxMultiply ih (x k) (y k) h1 h6

/-- The accumulator of every output element is a partial sum of R166. -/
theorem boundedSum_macLoop {xq yq : Buffer 8} {ne kk n i j k : Nat} {z : Word} (h1 : 1 ≤ ne) (h6 : ne ≤ 6)
    (h : macLoop xq yq ne kk n i j k = .ok z) : BoundedSum z :=
  macLoop_inv (P := fun _ => BoundedSum) h boundedSum_zero fun _ _ bx bY ha =>
    boundedSum_fadd32_approxMultiply ha bx bY h1 h6

/-- A command keeps `ZF` normal: only `APPROX_MATMUL` writes it, and each element it writes is an accumulator. -/
theorem exec_keeps_resultsNormal {i : Instr} {s t : State} (h : exec i s = .next t) (hs : ResultsNormal s) :
    ResultsNormal t := by
  rcases exec_cases h with ⟨_, -, rfl⟩ | ⟨_, -, -, -, rfl⟩ | ⟨_, -, -, -, rfl⟩ | ⟨_, -, -, -, rfl⟩ |
    ⟨_, _, -, -, -, -, -, -, rfl⟩ | ⟨ne, _, _, _, -, -, -, h1, h6, -, -, -, -, -, hz, rfl⟩
  case inr.inr.inr.inr.inr =>
    exact (productLoop_keeps hz).2.2 NormalOrZero (fun _ _ _ hm => (boundedSum_macLoop h1 h6 hm).normal) hs
  all_goals exact hs

/-- Settles O18: a step resets the core, runs a command, or leaves `ZF` alone. -/
theorem stepKeepsResultsNormal : Obligations.StepKeepsResultsNormal := by
  intro s t hs h
  rcases step_results h with ⟨rest, hi⟩ | ⟨w, rest, -, he⟩ | hsame
  · rw [step_reset hi] at h
    injection h with h
    subst h
    exact fun e he => absurd he (List.not_mem_nil)
  · exact exec_keeps_resultsNormal he hs
  · rw [ResultsNormal, hsame.zf]
    exact hs

/-- Settles O55: the accumulator's bounds, as rationals. -/
theorem partialSumsStayNormal : Obligations.PartialSumsStayNormal := by
  intro ne x y k h1 h6 acc
  obtain ⟨-, hnormal, ⟨z, hz⟩, hle⟩ := boundedSum_sumAscending x y k h1 h6
  refine ⟨hnormal, ⟨z, ?_⟩, ?_⟩
  · rw [val32_eq_fixed, hz]
    push_cast
    norm_num
    ring
  · rw [abs_val32, div_lt_iff₀ (by positivity)]
    exact_mod_cast hle.trans_lt (by norm_num)

/-! ### The product of 1 by 1 matrices (42_matmul.md R168) -/

/-- The first addition of a sum is exact (42_matmul.md R166). -/
theorem fadd32_zero_approxMultiply (bx bY : Byte) {ne : Nat} (h1 : 1 ≤ ne) (h6 : ne ≤ 6) :
    fadd32 0x00000000#32 (approxMultiply bx bY ne) = approxMultiply bx bY ne := by
  obtain ⟨hfin, -, hpos, -⟩ := fixedMag_approxMultiply bx bY h1 h6
  have hzero : val32 0x00000000#32 = 0 := (val32_eq_zero_iff _).mpr (by decide)
  refine faddIsExactOnRepresentableSums _ _ _ (by decide) hfin hfin ?_ ?_
  · rw [Ne, val32_eq_zero_iff, ← Int.natAbs_eq_zero, fixedVal_natAbs]
    exact hpos.ne'
  · rw [hzero, zero_add]

/-- Settles O57: the general product at size 1, where the sum is one exact addition. -/
theorem oneByOneProductIsOneMultiply : Obligations.OneByOneProductIsOneMultiply := by
  intro ne s x y h1 h6 hxr hxc hyr hyc hx hy
  obtain ⟨t, ht, -, -, -, -, hz, -⟩ := approxMatmulCompletes ne s (fun _ => x) (fun _ => y) h1 h6 (by omega) (by omega)
    (by omega) (by omega) (fun k hk => by rwa [show k = 0 by rw [hxr, hxc] at hk; omega])
    (fun k hk => by rwa [show k = 0 by rw [hyr, hyc] at hk; omega])
  refine ⟨t, ht, ?_⟩
  have hzero := hz 0 (by omega) 0 (by omega)
  simp only [hxr, hxc, hyc, sumAscending, fadd32_zero_approxMultiply _ _ h1 h6] at hzero
  simpa using hzero

end Sys2Proof.Machine
